-- ==== Sys2Proof/Word.lean ====
section
/-! DEFINITION. The word types of the machine (spec 00_scope.md R8, R10, R11): all values are unsigned bit vectors, bit 0 the
least significant. -/

namespace Sys2Proof

/-- A memory byte, a timer, a byte immediate NN (R8, R92). -/
abbrev Byte := BitVec 8

/-- A V cell, I, pc, a stack entry, an instruction word (R8, R91). -/
abbrev Word := BitVec 16

/-- A field X, Y or N of an instruction word, and a key index (R47, R92). -/
abbrev Nibble := BitVec 4

/-- An address immediate NNN (R92). -/
abbrev Addr := BitVec 12

end Sys2Proof
end

