-- ==== Sys2Proof/Config.lean ====
section
/-! DEFINITION. What is fixed for a run (the open parameters of spec 00_scope.md R9) and what the host decides (spec
10_state.md R47 to R50, 60_exceptions.md R236). The one free value, `Config.freeTurn`, has no body. -/

namespace Sys2Proof

/-- `LOW_WRITE_POLICY`: what a store to an address below 512 does (20_memory.md R69). -/
inductive LowWritePolicy where
  /-- the instruction raises StoreToProtected -/
  | fault
  /-- the byte is dropped -/
  | ignore
  /-- the byte is written -/
  | allow
  deriving DecidableEq, Repr

/-- The open parameters (00_scope.md R9), fixed for a run; `PROGRAM` is the argument of reset. -/
structure Config where
  /-- `SHL_MASK8`: whether 8XYE masks its result to 8 bits (42_alu.md R161) -/
  shlMask8 : Bool
  /-- `LOW_WRITE_POLICY` (20_memory.md R69) -/
  lowWritePolicy : LowWritePolicy
  /-- `FONT`: the 80 bytes at address 0 (20_memory.md R63) -/
  font : Vector Byte 80
  deriving DecidableEq, Repr

/-- What the host may do to the core between two steps (10_state.md R48, R50). -/
inductive HostEvent where
  /-- `key_write(k, v)`: `keys[k] <- v` (R48) -/
  | keyWrite (k : Nibble) (down : Bool)
  /-- `timer_tick`: decrement both timers (60_exceptions.md R244) -/
  | timerTick
  deriving DecidableEq, Repr

/-- One turn of the host: the events before a step, in order, and the inputs of that step. -/
structure HostTurn where
  /-- any number of events, in any order (60_exceptions.md R236) -/
  events : List HostEvent
  /-- `current_key`, `none` where `current_key_valid` = 0 (10_state.md R47) -/
  key : Option Nibble
  /-- `rnd`, the random byte of this step (10_state.md R49) -/
  rnd : Byte
  deriving DecidableEq, Repr, Inhabited

/-- FREE VALUE (DESIGN CHOICE, log 3): what the host does at its n-th turn where nothing is decided. The spec puts no law on it
(10_state.md R49, 60_exceptions.md R245, 93_implementation_defined.md I1, I17, I18): it has no body, so nothing can be
proved of it and every claim holds whatever it is. -/
opaque Config.freeTurn : Nat → HostTurn

end Sys2Proof
end

