-- ==== Sys2Proof/Machine/Font.lean ====
section
/-! DEFINITION. The values the spec recommends for the open parameters (spec 00_scope.md R9). -/

namespace Sys2Proof.Machine

/-- The recommended `FONT` (20_memory.md R63, which marks the table as general knowledge): sixteen glyphs of five bytes, digit 0
first, top row first. PRESUMED, log 2. -/
def recommendedFont : Vector Byte 80 :=
  #v[0xF0, 0x90, 0x90, 0x90, 0xF0,
     0x20, 0x60, 0x20, 0x20, 0x70,
     0xF0, 0x10, 0xF0, 0x80, 0xF0,
     0xF0, 0x10, 0xF0, 0x10, 0xF0,
     0x90, 0x90, 0xF0, 0x10, 0x10,
     0xF0, 0x80, 0xF0, 0x10, 0xF0,
     0xF0, 0x80, 0xF0, 0x90, 0xF0,
     0xF0, 0x10, 0x20, 0x40, 0x40,
     0xF0, 0x90, 0xF0, 0x90, 0xF0,
     0xF0, 0x90, 0xF0, 0x10, 0xF0,
     0xF0, 0x90, 0xF0, 0x90, 0x90,
     0xE0, 0x90, 0xE0, 0x90, 0xE0,
     0xF0, 0x80, 0x80, 0x80, 0xF0,
     0xE0, 0x90, 0x90, 0x90, 0xE0,
     0xF0, 0x80, 0xF0, 0x80, 0xF0,
     0xF0, 0x80, 0xF0, 0x80, 0x80]

/-- The spec's default of every open parameter (00_scope.md R9). Log 2. -/
def defaultConfig : Config :=
  { shlMask8 := false, lowWritePolicy := .fault, font := recommendedFont }

end Sys2Proof.Machine
end

