-- ==== Sys2Proof/Machine/State.lean ====
section
/-! DEFINITION. The state of the core (spec 10_state.md R20), the causes of its faults (60_exceptions.md R221), and its state
right after reset with an empty program image (10_state.md R53). -/

namespace Sys2Proof.Machine

/-- The causes a fault records (60_exceptions.md R221). -/
inductive Cause where
  /-- code 1: the program image is longer than 3584 bytes; raised by reset (R222) -/
  | loadError
  /-- code 2: one of the 8 unimplemented patterns (R223) -/
  | unimplementedOpcode
  /-- code 3: a word in no row of the opcode table (R224) -/
  | unknownOpcode
  /-- code 4: 2NNN with 48 calls pending (R225) -/
  | stackOverflow
  /-- code 5: 00EE with no call pending (R226) -/
  | stackUnderflow
  /-- code 6: an effective address I + k above 4095 (R227) -/
  | addressOutOfRange
  /-- code 7: fetch with pc above 4094, or a BNNN target above 0xFFFF (R229) -/
  | pcOutOfRange
  /-- code 8: EX9E or EXA1 with VX above 15 (R230) -/
  | keyIndexOutOfRange
  /-- code 9: a store below 512 where the policy is fault (R231) -/
  | storeToProtected
  deriving DecidableEq, Repr

/-- The status latch (10_state.md R41). -/
inductive Status where
  | running
  | halted
  /-- `fpc` is the pc of the faulting instruction, `detail` the argument of `raise` (R221) -/
  | faulted (cause : Cause) (fpc : Word) (detail : BitVec 20)
  deriving DecidableEq, Repr

/-- Reasons a step of the model stops without a next state: there is none. The spec describes what every error does to the state
(60_exceptions.md R228: the status latch records it), so an error is a next state whose status is `faulted`, and a step request
after the end is a next state too (70_reset_and_hazards.md R267). Log 5. -/
inductive Fault
  deriving DecidableEq, Repr

/-- Reasons the model gives an instruction no meaning. -/
inductive Refusal where
  /-- Raised only by an arm of `exec` whose instruction has no meaning yet; no arm of this model does. Safe: the model stops. -/
  | notModelled (mnemonic : String)
  deriving DecidableEq, Repr

/-- The state of the core. The first group is the list of 10_state.md R20; the rest are the model's own fields. -/
structure State where
  /-- memory: the cells that differ from their reset content without a program, in canonical form (R20, 20_memory.md R61) -/
  mem : List Host.Cell
  /-- V0 to VF, 16-bit cells (R22) -/
  V : Vector Word 16
  /-- the address register, at most 0xFFF in every reachable state (R27) -/
  I : Word
  /-- the address of the next instruction (R29) -/
  pc : Word
  /-- the call stack's cells (R32) -/
  stack : Vector Word 48
  /-- the number of stack entries in use (R32) -/
  sp : Fin 49
  /-- the delay timer (R35) -/
  dt : Byte
  /-- the sound timer (R36) -/
  st : Byte
  /-- the framebuffer: bit `y * 64 + x` is the pixel at column x, row y (R38) -/
  fb : BitVec 2048
  /-- the key latch (R40) -/
  keys : Vector Bool 16
  /-- the status latch (R41) -/
  status : Status
  /-- output port: the `cont` result of the last step (R51). Log 4. -/
  cont : Bool
  /-- output port: the `redraw` result of the last step (R51). Log 4. -/
  redraw : Bool
  /-- the open parameters, fixed for the run (R43). Log 1. -/
  cfg : Config
  /-- the host's turns already decided, the next one first (60_exceptions.md R236). Log 3. -/
  script : List HostTurn
  /-- how many step requests there have been: the index of the next free turn. Log 3. -/
  turn : Nat
  deriving DecidableEq, Repr

/-- The state after a successful reset with an empty program image (10_state.md R53), the open parameters at the spec's
defaults. -/
def State.reset : State :=
  { mem := []
    V := Vector.replicate 16 0
    I := 0
    pc := 0x200#16
    stack := Vector.replicate 48 0
    sp := 0
    dt := 0
    st := 0
    fb := 0
    keys := Vector.replicate 16 false
    status := .running
    cont := false
    redraw := false
    cfg := defaultConfig
    script := []
    turn := 0 }

end Sys2Proof.Machine
end

