-- ==== Sys2Proof/Machine/Ops.lean ====
section
/-! DEFINITION. The named operations over memory, registers, stack, framebuffer and status that the meanings share. -/

namespace Sys2Proof.Machine

/-- What a meaning and a step answer. -/
abbrev Result := Host.Outcome State Fault Refusal

/-! ### Memory as data (spec 20_memory.md R61, R62) -/

/-- What a memory cell holds after reset where no program byte lies: the font at 0 to 79, zero elsewhere (10_state.md R53). This
is what an address not listed in `State.mem` reads as. -/
def Memory.blank (c : Config) (a : Nat) : Byte :=
  if h : a < 80 then c.font[a] else 0

/-- The listed byte at an address. -/
def Memory.find : List Host.Cell → Nat → Option Byte
  | [], _ => none
  | (k, b) :: m, a => if k = a then some b else Memory.find m a

/-- The byte at an address. -/
def Memory.read (c : Config) (m : List Host.Cell) (a : Nat) : Byte :=
  (Memory.find m a).getD (Memory.blank c a)

/-- List a byte at its place in the rising order of addresses. -/
def Memory.insert : List Host.Cell → Nat → Byte → List Host.Cell
  | [], a, v => [(a, v)]
  | (k, b) :: m, a, v =>
    if a < k then (a, v) :: (k, b) :: m
    else if a = k then (a, v) :: m
    else (k, b) :: Memory.insert m a v

/-- Unlist an address. -/
def Memory.erase (m : List Host.Cell) (a : Nat) : List Host.Cell :=
  m.filter fun cell => !(cell.1 == a)

/-- Write a byte, keeping the canonical form: the value an unlisted address reads as is not listed. -/
def Memory.write (c : Config) (m : List Host.Cell) (a : Nat) (v : Byte) : List Host.Cell :=
  if v = Memory.blank c a then Memory.erase m a else Memory.insert m a v

/-- Write bytes at consecutive addresses from `a` upward. -/
def Memory.writeAll (c : Config) (m : List Host.Cell) (a : Nat) : List Byte → List Host.Cell
  | [] => m
  | b :: bs => Memory.writeAll c (Memory.write c m a b) (a + 1) bs

/-- The canonical form from address `lo` upward: addresses strictly rising, inside the 4096 bytes, and no entry equal to what an
unlisted address reads as. -/
def Memory.wfFrom (c : Config) (lo : Nat) : List Host.Cell → Bool
  | [] => true
  | (k, b) :: m => decide (lo ≤ k) && decide (k < 4096) && !(b == Memory.blank c k) && Memory.wfFrom c (k + 1) m

/-- The canonical form of a memory. -/
def Memory.wf (c : Config) (m : List Host.Cell) : Bool := Memory.wfFrom c 0 m

/-! ### Registers -/

/-- VF, the flag register (10_state.md R24). -/
def VF : Nibble := 0xF#4

/-- `V[r]`, the whole cell (10_state.md R21, R22). -/
def State.reg (s : State) (r : Nibble) : Word := s.V[r.toNat]'r.isLt

/-- `V[r] <- w`, all 16 bits. -/
def State.setV (s : State) (r : Nibble) (w : Word) : State :=
  { s with V := s.V.set r.toNat w r.isLt }

/-- `IWrite(v)`: every write of I is masked to 12 bits (10_state.md R28). -/
def State.iWrite (s : State) (v : Nat) : State :=
  { s with I := BitVec.ofNat 16 (v % 4096) }

/-! ### Memory as the instructions reach it -/

/-- The byte at an address. A read that an instruction makes has passed `checkLoad` or its like first (20_memory.md R68,
43_index_memory.md R170), so its address is at most 4095. -/
def State.load (s : State) (a : Nat) : Byte := Memory.read s.cfg s.mem a

/-- A store at this address changes memory: at 512 and above always, below it only where the policy is allow (20_memory.md
R69); never above 4095. -/
def State.writable (s : State) (a : Nat) : Bool :=
  decide (a ≤ 4095) && (decide (512 ≤ a) || s.cfg.lowWritePolicy == .allow)

/-- `MemWrite(a, 1, v)` after its checks (20_memory.md R69). -/
def State.store (s : State) (a : Nat) (v : Byte) : State :=
  { s with mem := if s.writable a then Memory.write s.cfg s.mem a v else s.mem }

/-- `CheckLoad(a, n)` for n ≥ 1: the cause and detail it raises, if any (43_index_memory.md R170). -/
def checkLoad (a n : Nat) : Option (Cause × Nat) :=
  if a + n - 1 > 4095 then some (.addressOutOfRange, 4096) else none

/-- `CheckStore(a, n)` for n ≥ 1 (43_index_memory.md R170). -/
def State.checkStore (s : State) (a n : Nat) : Option (Cause × Nat) :=
  if a + n - 1 > 4095 then some (.addressOutOfRange, 4096)
  else if a < 512 ∧ s.cfg.lowWritePolicy = .fault then some (.storeToProtected, a)
  else none

/-- `Fetch()`: the big-endian word at pc, or `none` where pc is above 4094 (20_memory.md R66). -/
def State.fetch (s : State) : Option Word :=
  if s.pc.toNat > 4094 then none
  else some (s.load s.pc.toNat ++ s.load (s.pc.toNat + 1))

/-- The instruction bytes `hi`, `lo` placed where the next step fetches: at pc, or at 512 with pc set there where pc is above 4094
and no step can fetch. Not an operation of the core; it stands for the load of a program (log 12, log 13). -/
def State.placeBytes (s : State) (hi lo : Byte) : State :=
  let p : Word := if s.pc.toNat ≤ 4094 then s.pc else 0x200#16
  { s with
    mem := Memory.write s.cfg (Memory.write s.cfg s.mem p.toNat hi) (p.toNat + 1) lo
    pc := p
    status := .running }

/-! ### Call stack (10_state.md R32 to R34) -/

/-- `Push(v)`, or `none` where 48 entries are in use. -/
def State.push (s : State) (v : Word) : Option State :=
  if h : s.sp.val < 48 then
    some { s with stack := s.stack.set s.sp.val v h, sp := ⟨s.sp.val + 1, by omega⟩ }
  else none

/-- `Pop()`: the newest entry and the state after, or `none` where no entry is in use. The popped cell keeps its bits (R33). -/
def State.pop (s : State) : Option (Word × State) :=
  if h : 0 < s.sp.val then
    some (s.stack[s.sp.val - 1]'(by omega), { s with sp := ⟨s.sp.val - 1, by omega⟩ })
  else none

/-! ### Framebuffer (10_state.md R38) -/

/-- `fb[k]`. -/
def pixel (fb : BitVec 2048) (k : Nat) : Bool := fb.getLsbD k

/-- `fb[k] <- b`. -/
def setPixel (fb : BitVec 2048) (k : Nat) (b : Bool) : BitVec 2048 :=
  if b then fb ||| BitVec.twoPow 2048 k else fb &&& ~~~ BitVec.twoPow 2048 k

/-! ### Raising a fault, completing a step, halting -/

/-- TAKING AN EXCEPTION: `raise F(detail)` (60_exceptions.md R228). The status latch records cause, pc and detail; the outputs are 0;
nothing else changes, pc included. There is no handler and no return (R233, R234). -/
def State.raise (s : State) (c : Cause) (detail : Nat) : State :=
  { s with status := .faulted c s.pc (BitVec.ofNat 20 detail), cont := false, redraw := false }

/-- The commit of a step that completes with `cont` = 1: the next pc and the outputs (40_control_flow.md R120, 10_state.md R51). -/
def State.finish (s : State) (pc : Word) (redraw : Bool) : State :=
  { s with pc := pc, cont := true, redraw := redraw }

/-- The address of the next instruction in sequence, P + 2 (40_control_flow.md R121). Log 10. -/
def State.nextPc (s : State) : Word := s.pc + 2

/-- The address after the next instruction, P + 4, where a skip goes (40_control_flow.md R122). Log 10. -/
def State.skipPc (s : State) : Word := s.pc + 4

/-- The commit of an instruction that advances pc by 2 and requests no redraw. -/
def State.done (s : State) : State := s.finish s.nextPc false

/-- The stop of 00FD: status Halted, `cont` = 0, pc advanced (40_control_flow.md R125). -/
def State.halt (s : State) : State :=
  { s with status := .halted, pc := s.nextPc, cont := false, redraw := false }

/-- A step request after the end of the run: outputs 0 and nothing else (70_reset_and_hazards.md R267). -/
def State.idle (s : State) : State := { s with cont := false, redraw := false }

end Sys2Proof.Machine
end

