-- ==== Sys2Proof/Machine/Flags.lean ====
section
/-! DEFINITION. Every flag computation of the machine (spec 10_state.md R25); the only flag storage is VF (R24). -/

namespace Sys2Proof.Machine

/-- A flag as the cell it is written to: exactly 0 or 1 (10_state.md R26). -/
def flagWord (b : Bool) : Word := if b then 1 else 0

/-- `VF <- flag`, the whole cell (10_state.md R26). -/
def State.setFlag (s : State) (b : Bool) : State := s.setV VF (flagWord b)

/-- The carry of 8XY4: the sum of the whole cells reaches 256 (42_alu.md R157). -/
def carryOut (a b : Word) : Bool := decide (a.toNat + b.toNat ≥ 256)

/-- The flag of 8XY5 and 8XY7 for the difference a − b: no borrow (42_alu.md R158, R160). -/
def noBorrow (a b : Word) : Bool := decide ((a.toNat : Int) - (b.toNat : Int) ≥ 0)

/-- The bit 8XY6 shifts out, bit 0 (42_alu.md R159). -/
def shrOut (a : Word) : Bool := a.getLsbD 0

/-- The bit 8XYE shifts out, bit 15 of the cell and not bit 7 (42_alu.md R161). -/
def shlOut (a : Word) : Bool := a.getLsbD 15

/-- The flag of FX1E: the sum exceeds 0xFFF (43_index_memory.md R172). -/
def indexOverflow (i a : Word) : Bool := decide (i.toNat + a.toNat > 0xFFF)

/-- A sprite bit 1 met a pixel that was 1 (45_draw.md R198, R199). -/
def collides (old bit : Bool) : Bool := old && bit

end Sys2Proof.Machine
end

