-- ==== Sys2Proof/Machine/HostTurns.lean ====
section
/-! DEFINITION. The host's moves between steps and the inputs of a step (spec 10_state.md R47 to R50, 60_exceptions.md R236,
R244). -/

namespace Sys2Proof.Machine

/-- One timer after a tick: down by one, saturating at 0 (60_exceptions.md R244). -/
def tickDown (t : Byte) : Byte := if t = 0 then 0 else t - 1

/-- `timer_tick`: both timers by the same event, whatever the status is (60_exceptions.md R244). -/
def State.timerTick (s : State) : State := { s with dt := tickDown s.dt, st := tickDown s.st }

/-- `key_write(k, v)` (10_state.md R48). -/
def State.keyWrite (s : State) (k : Nibble) (down : Bool) : State :=
  { s with keys := s.keys.set k.toNat down k.isLt }

/-- One event of the host. -/
def State.hostEvent (s : State) : HostEvent → State
  | .keyWrite k down => s.keyWrite k down
  | .timerTick => s.timerTick

/-- Events of the host in order. -/
def State.hostEvents (s : State) (evs : List HostEvent) : State := evs.foldl State.hostEvent s

/-- The host's turn at the next step: the next one of the script, or where the script is empty the free one (log 3). -/
def State.input (s : State) : HostTurn := s.script.headD (Config.freeTurn s.turn)

/-- The events that fall before the next step take effect. An event writes the latch and the timers and nothing else (20_memory.md
R72), so only those three fields are taken from the state after the events (log 7). -/
def State.hostMoves (s : State) : State :=
  { s with
    keys := (s.hostEvents s.input.events).keys
    dt := (s.hostEvents s.input.events).dt
    st := (s.hostEvents s.input.events).st }

/-- The host's turn is over: the next step has the next one (10_state.md R43: the inputs are not remembered). -/
def State.endTurn (s : State) : State := { s with script := s.script.tail, turn := s.turn + 1 }

end Sys2Proof.Machine
end

