-- ==== Sys2Proof/Machine/Operands.lean ====
section
/-! DEFINITION. The operand forms of the instructions (spec 30_encoding.md R93, R94, 43_index_memory.md R170, 45_draw.md R194 to
R197). -/

namespace Sys2Proof.Machine

/-- `zext_16(NN)` (30_encoding.md R94); also a byte or a timer brought to a V cell. -/
def zext16 (b : Byte) : Word := b.setWidth 16

/-- `zext_16(NNN)` (30_encoding.md R94). -/
def zextAddr (nnn : Addr) : Word := nnn.setWidth 16

/-- `zext_16` of a key index (44_timers_keys.md R182). -/
def zextKey (k : Nibble) : Word := k.setWidth 16

/-- `lo8(v)` (00_scope.md R12). -/
def lo8 (w : Word) : Byte := w.setWidth 8

/-- The effective address `I + k` (43_index_memory.md R170); not reduced. -/
def State.effAddr (s : State) (k : Nat) : Nat := s.I.toNat + k

/-- `V[k]` for k = 0, ..., X: the registers of FX55 and FX65, in order (43_index_memory.md R175, R176). -/
def regsTo (x : Nibble) : List Nibble := (List.range (x.toNat + 1)).map (BitVec.ofNat 4)

/-- The key an EX9E or EXA1 names, or `none` where the cell is above 15 (20_memory.md R79). -/
def keyIndex (w : Word) : Option Nibble :=
  if w.toNat > 15 then none else some (BitVec.ofNat 4 w.toNat)

/-- `keys[k]`. -/
def State.keyDown (s : State) (k : Nibble) : Bool := s.keys[k.toNat]'k.isLt

/-- The hundreds of FX33 (43_index_memory.md R174). -/
def bcdHundreds (w : Word) : Byte := BitVec.ofNat 8 (w.toNat / 100)

/-- The tens of FX33. -/
def bcdTens (w : Word) : Byte := BitVec.ofNat 8 (w.toNat / 10 % 10)

/-- The ones of FX33. -/
def bcdOnes (w : Word) : Byte := BitVec.ofNat 8 (w.toNat % 10)

/-- The start column of a sprite (45_draw.md R194). -/
def startCol (w : Word) : Nat := w.toNat % 64

/-- The start row of a sprite (45_draw.md R194). -/
def startRow (w : Word) : Nat := w.toNat % 32

/-- The number of drawn rows, clipped at the bottom edge (45_draw.md R195). -/
def drawnRows (n : Nibble) (y0 : Nat) : Nat := min n.toNat (32 - y0)

/-- The number of drawn columns, clipped at the right edge (45_draw.md R196). -/
def drawnCols (x0 : Nat) : Nat := min 8 (64 - x0)

/-- Sprite bit c of a sprite byte, c counted from the left (45_draw.md R197). -/
def spriteBit (b : Byte) (c : Nat) : Bool := b.getLsbD (7 - c)

/-- The framebuffer cell of column x and row y (10_state.md R38). -/
def cellIndex (x y : Nat) : Nat := y * 64 + x

end Sys2Proof.Machine
end

