-- ==== Sys2Proof/Machine/Alu.lean ====
section
/-! DEFINITION. Register load, arithmetic, logic, shift and random (spec 42_alu.md R150 to R162). The writes of a meaning stand in
the order of the rule's statements, which decides what happens where X or Y is F (R150, R164). -/

namespace Sys2Proof.Machine

/-- 6XNN (R151). -/
def execLdImm (x : Nibble) (nn : Byte) (s : State) : Result := .next (s.setV x (zext16 nn)).done

/-- 7XNN (R152): the whole cell is added to, the sum reduced modulo 256; no flag. -/
def execAddImm (x : Nibble) (nn : Byte) (s : State) : Result :=
  .next (s.setV x (BitVec.ofNat 16 (((s.reg x).toNat + nn.toNat) % 256))).done

/-- 8XY0 (R153). -/
def execLdReg (x y : Nibble) (s : State) : Result := .next (s.setV x (s.reg y)).done

/-- 8XY1 (R154): VF is not written. -/
def execOrReg (x y : Nibble) (s : State) : Result := .next (s.setV x (s.reg x ||| s.reg y)).done

/-- 8XY2 (R155): VF is not written. -/
def execAndReg (x y : Nibble) (s : State) : Result := .next (s.setV x (s.reg x &&& s.reg y)).done

/-- 8XY3 (R156): VF is not written. -/
def execXorReg (x y : Nibble) (s : State) : Result := .next (s.setV x (s.reg x ^^^ s.reg y)).done

/-- 8XY4 (R157): the sum first, then the carry. -/
def execAddReg (x y : Nibble) (s : State) : Result :=
  let sum := (s.reg x).toNat + (s.reg y).toNat
  .next ((s.setV x (BitVec.ofNat 16 (sum % 256))).setFlag (carryOut (s.reg x) (s.reg y))).done

/-- The statements 8XY5 and 8XY7 share: the flag of a − b first, then the absolute value of the difference into VX (R158, R160). -/
def State.absDiff (s : State) (x : Nibble) (a b : Word) : State :=
  let diff : Int := (a.toNat : Int) - (b.toNat : Int)
  (s.setFlag (noBorrow a b)).setV x (BitVec.ofNat 16 diff.natAbs)

/-- 8XY5 (R158): the absolute value of VX − VY, not the wrapped difference. -/
def execSubReg (x y : Nibble) (s : State) : Result := .next (s.absDiff x (s.reg x) (s.reg y)).done

/-- 8XY6 (R159): the flag first; VX is then read again, and VY never. -/
def execShr (x _y : Nibble) (s : State) : Result :=
  let s1 := s.setFlag (shrOut (s.reg x))
  .next (s1.setV x (s1.reg x >>> 1)).done

/-- 8XY7 (R160): as 8XY5 with VY − VX; the destination is VX. -/
def execSubnReg (x y : Nibble) (s : State) : Result := .next (s.absDiff x (s.reg y) (s.reg x)).done

/-- 8XYE (R161): the flag is bit 15 of the cell; the width of the result is the parameter `SHL_MASK8`. -/
def execShl (x _y : Nibble) (s : State) : Result :=
  let s1 := s.setFlag (shlOut (s.reg x))
  let doubled := (s1.reg x).toNat * 2
  .next (s1.setV x (BitVec.ofNat 16 (if s.cfg.shlMask8 then doubled % 256 else doubled % 65536))).done

/-- CXNN (R162): `rnd` is the input of this step, a free byte. -/
def execRnd (x : Nibble) (nn : Byte) (s : State) : Result := .next (s.setV x (zext16 (s.input.rnd &&& nn))).done

end Sys2Proof.Machine
end

