-- ==== Sys2Proof/Machine/ControlFlow.lean ====
section
/-! DEFINITION. Return, halt, jump, call (spec 40_control_flow.md R124 to R128). -/

namespace Sys2Proof.Machine

/-- 00EE (R124): the popped entry is the address of the matching call, so execution goes on 2 bytes after it. -/
def execRet (s : State) : Result :=
  .next (match s.pop with
    | some (a, s1) => s1.finish (a + 2) false
    | none => s.raise .stackUnderflow 0)

/-- 00FD (R125). -/
def execExit (s : State) : Result := .next s.halt

/-- 1NNN (R126). -/
def execJp (nnn : Addr) (s : State) : Result := .next (s.finish (zextAddr nnn) false)

/-- 2NNN (R127): the pushed value is the address of the call itself. -/
def execCall (nnn : Addr) (s : State) : Result :=
  .next (match s.push s.pc with
    | some s1 => s1.finish (zextAddr nnn) false
    | none => s.raise .stackOverflow 48)

/-- BNNN (R128): the sum with the whole cell of V0 is not reduced; a target that does not fit pc faults here. -/
def execJpV0 (nnn : Addr) (s : State) : Result :=
  let t := nnn.toNat + (s.reg 0).toNat
  .next (if t > 0xFFFF then s.raise .pcOutOfRange t else s.finish (BitVec.ofNat 16 t) false)

end Sys2Proof.Machine
end

