-- ==== Sys2Proof/Machine/Draw.lean ====
section
/-! DEFINITION. Clear and draw, the sprite draw and collision detector (spec 45_draw.md R190 to R204). -/

namespace Sys2Proof.Machine

/-- 00E0 (R191): every pixel off; redraw requested. -/
def execCls (s : State) : Result := .next (State.finish { s with fb := 0 } s.nextPc true)

/-- The framebuffer and the collision accumulator after one pixel: exclusive or, and a collision where both were 1 (R198, R199). -/
def drawPixel (k : Nat) (bit : Bool) (p : BitVec 2048 × Bool) : BitVec 2048 × Bool :=
  (setPixel p.1 k (Bool.xor (pixel p.1 k) bit), p.2 || collides (pixel p.1 k) bit)

/-- One sprite row, left to right up to the right edge (R196, R197). -/
def drawRow (x0 y : Nat) (b : Byte) (p : BitVec 2048 × Bool) : BitVec 2048 × Bool :=
  (List.range (drawnCols x0)).foldl (fun p c => drawPixel (cellIndex (x0 + c) y) (spriteBit b c) p) p

/-- `rows` sprite rows from row y0 downward, row r from the byte at I + r (R193, R195). -/
def State.drawSprite (s : State) (x0 y0 rows : Nat) : BitVec 2048 × Bool :=
  (List.range rows).foldl (fun p r => drawRow x0 (y0 + r) (s.load (s.effAddr r)) p) (s.fb, false)

/-- DXYN (R193): VF is cleared first, then the start coordinate read, so that VF named as X or Y reads 0 (R204); the address check
covers the drawn rows and precedes every write (R202); VF ends as the collision flag; redraw is always requested (R201). -/
def execDrw (x y n : Nibble) (s : State) : Result :=
  let s1 := s.setFlag false
  let x0 := startCol (s1.reg x)
  let y0 := startRow (s1.reg y)
  let rows := drawnRows n y0
  .next (if rows ≥ 1 ∧ s.effAddr (rows - 1) > 4095 then s.raise .addressOutOfRange 4096
    else
      let p := s1.drawSprite x0 y0 rows
      (State.setFlag { s1 with fb := p.1 } p.2).finish s.nextPc true)

end Sys2Proof.Machine
end

