-- ==== Sys2Proof/Machine/IndexMemory.lean ====
section
/-! DEFINITION. The address register and the memory transfers (spec 43_index_memory.md R170 to R176). Every address is checked before
anything is written (R170), so a fault leaves memory and registers as they were. -/

namespace Sys2Proof.Machine

/-- ANNN (R171). -/
def execLdI (nnn : Addr) (s : State) : Result := .next (s.iWrite nnn.toNat).done

/-- FX1E (R172): VF is written on every execution; where X is F the old VF is the addend. -/
def execAddI (x : Nibble) (s : State) : Result :=
  let r := s.I.toNat + (s.reg x).toNat
  .next ((s.iWrite r).setFlag (indexOverflow s.I (s.reg x))).done

/-- FX29 (R173): the whole cell times 5, masked by `IWrite`. -/
def execLdF (x : Nibble) (s : State) : Result := .next (s.iWrite ((s.reg x).toNat * 5)).done

/-- The three stores of FX33 at I, I + 1 and I + 2 (R174). -/
def State.storeBcd (s : State) (v : Word) : State :=
  ((s.store (s.effAddr 0) (bcdHundreds v)).store (s.effAddr 1) (bcdTens v)).store (s.effAddr 2) (bcdOnes v)

/-- FX33 (R174). -/
def execLdB (x : Nibble) (s : State) : Result :=
  .next (match s.checkStore s.I.toNat 3 with
    | some (c, d) => s.raise c d
    | none => (s.storeBcd (s.reg x)).done)

/-- The stores of FX55: the low byte of each register at I + k, k = 0, ..., X in order (R175). -/
def State.storeAll (s : State) (x : Nibble) : State :=
  (regsTo x).foldl (fun t k => t.store (s.effAddr k.toNat) (lo8 (s.reg k))) s

/-- FX55 (R175): I is unchanged. -/
def execStoreRegs (x : Nibble) (s : State) : Result :=
  .next (match s.checkStore s.I.toNat (x.toNat + 1) with
    | some (c, d) => s.raise c d
    | none => (s.storeAll x).done)

/-- The loads of FX65: the byte at I + k into register k, k = 0, ..., X in order (R176). -/
def State.loadAll (s : State) (x : Nibble) : State :=
  (regsTo x).foldl (fun t k => t.setV k (zext16 (s.load (s.effAddr k.toNat)))) s

/-- FX65 (R176): I is unchanged. -/
def execLoadRegs (x : Nibble) (s : State) : Result :=
  .next (match checkLoad s.I.toNat (x.toNat + 1) with
    | some (c, d) => s.raise c d
    | none => (s.loadAll x).done)

end Sys2Proof.Machine
end

