-- ==== Sys2Proof/Machine/Skips.lean ====
section
/-! DEFINITION. The conditional skips (spec 41_skips.md R140 to R146). Register comparisons are of whole cells (R140). -/

namespace Sys2Proof.Machine

/-- A skip writes nothing but pc: P + 4 where the condition holds, else P + 2 (R140, 40_control_flow.md R122). -/
def State.skipIf (s : State) (cond : Bool) : State := s.finish (if cond then s.skipPc else s.nextPc) false

/-- 3XNN (R141). -/
def execSeImm (x : Nibble) (nn : Byte) (s : State) : Result := .next (s.skipIf (s.reg x == zext16 nn))

/-- 4XNN (R142). -/
def execSneImm (x : Nibble) (nn : Byte) (s : State) : Result := .next (s.skipIf (s.reg x != zext16 nn))

/-- 5XY0 (R143). -/
def execSeReg (x y : Nibble) (s : State) : Result := .next (s.skipIf (s.reg x == s.reg y))

/-- 9XY0 (R144). -/
def execSneReg (x y : Nibble) (s : State) : Result := .next (s.skipIf (s.reg x != s.reg y))

/-- EX9E (R145): reads the key latch; a key index above 15 faults. -/
def execSkp (x : Nibble) (s : State) : Result :=
  .next (match keyIndex (s.reg x) with
    | some k => s.skipIf (s.keyDown k)
    | none => s.raise .keyIndexOutOfRange (s.reg x).toNat)

/-- EXA1 (R146). -/
def execSknp (x : Nibble) (s : State) : Result :=
  .next (match keyIndex (s.reg x) with
    | some k => s.skipIf (!s.keyDown k)
    | none => s.raise .keyIndexOutOfRange (s.reg x).toNat)

end Sys2Proof.Machine
end

