-- ==== Sys2Proof/Machine/TimersKeys.lean ====
section
/-! DEFINITION. Timer access and the key wait (spec 44_timers_keys.md R180 to R184). -/

namespace Sys2Proof.Machine

/-- FX07 (R181). -/
def execLdVxDt (x : Nibble) (s : State) : Result := .next (s.setV x (zext16 s.dt)).done

/-- FX0A (R182): with a key, VX takes it and pc advances; without one nothing but the outputs changes, and the next step executes
this FX0A again. It reads the step's `current_key`, never the latch. -/
def execLdVxK (x : Nibble) (s : State) : Result :=
  .next (State.finish
    { s with V := match s.input.key with
        | some k => (s.setV x (zextKey k)).V
        | none => s.V }
    (match s.input.key with
      | some _ => s.nextPc
      | none => s.pc)
    false)

/-- FX15 (R183): the low byte of the cell replaces dt. -/
def execLdDtVx (x : Nibble) (s : State) : Result := .next (State.done { s with dt := lo8 (s.reg x) })

/-- FX18 (R184): the low byte of the cell replaces st. -/
def execLdStVx (x : Nibble) (s : State) : Result := .next (State.done { s with st := lo8 (s.reg x) })

end Sys2Proof.Machine
end

