-- ==== Sys2Proof/Syntax.lean ====
section
/-! DEFINITION. The instructions: one constructor per row of spec/opcode_table.json, in the table's order (spec 30_encoding.md
R97 and R98). Operands are the fields of R92 as the row's pattern shows them. -/

namespace Sys2Proof

/-- The 35 implemented instructions (R97) and the 8 recognised-but-unimplemented patterns (R98). -/
inductive Instr where
  /-- 00E0 (R191) -/
  | cls
  /-- 00EE (R124) -/
  | ret
  /-- 00FD (R125) -/
  | exit
  /-- 1NNN (R126) -/
  | jp (nnn : Addr)
  /-- 2NNN (R127) -/
  | call (nnn : Addr)
  /-- 3XNN (R141) -/
  | seImm (x : Nibble) (nn : Byte)
  /-- 4XNN (R142) -/
  | sneImm (x : Nibble) (nn : Byte)
  /-- 5XY0 (R143) -/
  | seReg (x y : Nibble)
  /-- 6XNN (R151) -/
  | ldImm (x : Nibble) (nn : Byte)
  /-- 7XNN (R152) -/
  | addImm (x : Nibble) (nn : Byte)
  /-- 8XY0 (R153) -/
  | ldReg (x y : Nibble)
  /-- 8XY1 (R154) -/
  | orReg (x y : Nibble)
  /-- 8XY2 (R155) -/
  | andReg (x y : Nibble)
  /-- 8XY3 (R156) -/
  | xorReg (x y : Nibble)
  /-- 8XY4 (R157) -/
  | addReg (x y : Nibble)
  /-- 8XY5 (R158) -/
  | subReg (x y : Nibble)
  /-- 8XY6 (R159); Y is encoded and never used (R93) -/
  | shr (x y : Nibble)
  /-- 8XY7 (R160) -/
  | subnReg (x y : Nibble)
  /-- 8XYE (R161); Y is encoded and never used (R93) -/
  | shl (x y : Nibble)
  /-- 9XY0 (R144) -/
  | sneReg (x y : Nibble)
  /-- ANNN (R171) -/
  | ldI (nnn : Addr)
  /-- BNNN (R128) -/
  | jpV0 (nnn : Addr)
  /-- CXNN (R162) -/
  | rnd (x : Nibble) (nn : Byte)
  /-- DXYN (R192 to R204) -/
  | drw (x y n : Nibble)
  /-- EX9E (R145) -/
  | skp (x : Nibble)
  /-- EXA1 (R146) -/
  | sknp (x : Nibble)
  /-- FX07 (R181) -/
  | ldVxDt (x : Nibble)
  /-- FX0A (R182) -/
  | ldVxK (x : Nibble)
  /-- FX15 (R183) -/
  | ldDtVx (x : Nibble)
  /-- FX18 (R184) -/
  | ldStVx (x : Nibble)
  /-- FX1E (R172) -/
  | addI (x : Nibble)
  /-- FX29 (R173) -/
  | ldF (x : Nibble)
  /-- FX33 (R174) -/
  | ldB (x : Nibble)
  /-- FX55 (R175); X is a count, registers V0 to VX -/
  | storeRegs (x : Nibble)
  /-- FX65 (R176); X is a count, registers V0 to VX -/
  | loadRegs (x : Nibble)
  /-- 00CN (R98 U1, R129) -/
  | unimpl00CN (n : Nibble)
  /-- 00FB (R98 U2, R129) -/
  | unimpl00FB
  /-- 00FC (R98 U3, R129) -/
  | unimpl00FC
  /-- 00FE (R98 U4, R129) -/
  | unimpl00FE
  /-- 00FF (R98 U5, R129) -/
  | unimpl00FF
  /-- 0NNN: every word of family 0 that no other row takes (R96, R98 U6, R129) -/
  | unimpl0NNN (nnn : Addr)
  /-- FX75 (R98 U7, R129) -/
  | unimplFX75 (x : Nibble)
  /-- FX85 (R98 U8, R129) -/
  | unimplFX85 (x : Nibble)
  deriving DecidableEq, Repr

end Sys2Proof
end

