-- ==== Sys2Proof/WellFormed.lean ====
section
/-! DEFINITION. Which instruction terms stand for a word of their own. Every operand value of every row does, but for the row
0NNN, which gives way to the ten rows of family 0 with more mask bits (spec 30_encoding.md R96). -/

namespace Sys2Proof

/-- The low twelve bits of the family-0 words that a row with all sixteen mask bits takes: 00E0, 00EE, 00FD, 00FB, 00FC, 00FE
and 00FF (R97, R98). -/
def family0Exact : List Addr := [0x0E0#12, 0x0EE#12, 0x0FD#12, 0x0FB#12, 0x0FC#12, 0x0FE#12, 0x0FF#12]

/-- The term stands for a word of its own row (R96). -/
def Instr.wellFormed : Instr → Bool
  | .unimpl0NNN nnn => !family0Exact.contains nnn && !(nnn.extractLsb' 4 8 == 0x0C#8)
  | _ => true

end Sys2Proof
end

