-- ==== Sys2Proof/Decode.lean ====
section
/-! DEFINITION. The decoder (spec 30_encoding.md R90 to R101) and, after it, the encoder written from the same table. -/

namespace Sys2Proof

/-! ### Fields (R91, R92) -/

/-- Bits 15:12, the family. -/
def nibble0 (op : Word) : Nibble := op.extractLsb' 12 4

/-- Bits 11:8. -/
def fieldX (op : Word) : Nibble := op.extractLsb' 8 4

/-- Bits 7:4. -/
def fieldY (op : Word) : Nibble := op.extractLsb' 4 4

/-- Bits 3:0. -/
def fieldN (op : Word) : Nibble := op.extractLsb' 0 4

/-- Bits 7:0. -/
def fieldNN (op : Word) : Byte := op.extractLsb' 0 8

/-- Bits 11:0. -/
def fieldNNN (op : Word) : Addr := op.extractLsb' 0 12

/-! ### Decode (R95) -/

/-- Family 0: three exact words, and every other word unimplemented (R95, R96). -/
def decodeFamily0 (op : Word) : Instr :=
  if op = 0x00E0#16 then .cls
  else if op = 0x00EE#16 then .ret
  else if op = 0x00FD#16 then .exit
  else if op = 0x00FB#16 then .unimpl00FB
  else if op = 0x00FC#16 then .unimpl00FC
  else if op = 0x00FE#16 then .unimpl00FE
  else if op = 0x00FF#16 then .unimpl00FF
  else if op.extractLsb' 4 12 = 0x00C#12 then .unimpl00CN (fieldN op)
  else .unimpl0NNN (fieldNNN op)

/-- Family 8, by nibble3 (R95). -/
def decodeFamily8 (x y n : Nibble) : Option Instr :=
  match n with
  | 0x0#4 => some (.ldReg x y)
  | 0x1#4 => some (.orReg x y)
  | 0x2#4 => some (.andReg x y)
  | 0x3#4 => some (.xorReg x y)
  | 0x4#4 => some (.addReg x y)
  | 0x5#4 => some (.subReg x y)
  | 0x6#4 => some (.shr x y)
  | 0x7#4 => some (.subnReg x y)
  | 0xE#4 => some (.shl x y)
  | _ => none

/-- Family E, by the low byte (R95). -/
def decodeFamilyE (x : Nibble) (nn : Byte) : Option Instr :=
  match nn with
  | 0x9E#8 => some (.skp x)
  | 0xA1#8 => some (.sknp x)
  | _ => none

/-- Family F, by the low byte (R95). -/
def decodeFamilyF (x : Nibble) (nn : Byte) : Option Instr :=
  match nn with
  | 0x07#8 => some (.ldVxDt x)
  | 0x0A#8 => some (.ldVxK x)
  | 0x15#8 => some (.ldDtVx x)
  | 0x18#8 => some (.ldStVx x)
  | 0x1E#8 => some (.addI x)
  | 0x29#8 => some (.ldF x)
  | 0x33#8 => some (.ldB x)
  | 0x55#8 => some (.storeRegs x)
  | 0x65#8 => some (.loadRegs x)
  | 0x75#8 => some (.unimplFX75 x)
  | 0x85#8 => some (.unimplFX85 x)
  | _ => none

/-- The decoder, total on the 65536 words: an instruction, or `none` for a word the spec calls Unknown (R95, R99). -/
def decodeWord (op : Word) : Option Instr :=
  match nibble0 op with
  | 0x0#4 => some (decodeFamily0 op)
  | 0x1#4 => some (.jp (fieldNNN op))
  | 0x2#4 => some (.call (fieldNNN op))
  | 0x3#4 => some (.seImm (fieldX op) (fieldNN op))
  | 0x4#4 => some (.sneImm (fieldX op) (fieldNN op))
  | 0x5#4 => if fieldN op = 0#4 then some (.seReg (fieldX op) (fieldY op)) else none
  | 0x6#4 => some (.ldImm (fieldX op) (fieldNN op))
  | 0x7#4 => some (.addImm (fieldX op) (fieldNN op))
  | 0x8#4 => decodeFamily8 (fieldX op) (fieldY op) (fieldN op)
  | 0x9#4 => if fieldN op = 0#4 then some (.sneReg (fieldX op) (fieldY op)) else none
  | 0xA#4 => some (.ldI (fieldNNN op))
  | 0xB#4 => some (.jpV0 (fieldNNN op))
  | 0xC#4 => some (.rnd (fieldX op) (fieldNN op))
  | 0xD#4 => some (.drw (fieldX op) (fieldY op) (fieldN op))
  | 0xE#4 => decodeFamilyE (fieldX op) (fieldNN op)
  | _ => decodeFamilyF (fieldX op) (fieldNN op)

/-- What a list of bytes decodes to. -/
inductive Decoded where
  /-- an instruction, and the bytes after it -/
  | instr (i : Instr) (rest : List Byte)
  /-- a word in no row of the opcode table (R99) -/
  | unknownOpcode (op : Word)
  /-- fewer than the two bytes of an instruction (R90) -/
  | truncated
  deriving DecidableEq, Repr

/-- Decode the first two bytes of a list, the first holding nibble0 and nibble1 (20_memory.md R65, R91). -/
def decode : List Byte → Decoded
  | b0 :: b1 :: rest =>
    match decodeWord (b0 ++ b1) with
    | some i => .instr i rest
    | none => .unknownOpcode (b0 ++ b1)
  | _ => .truncated

/-! ### Encode (R92, R93, R97, R98) -/

/-- Four nibbles, nibble0 first (R91). -/
def wordOfNibbles (n0 n1 n2 n3 : Nibble) : Word := n0 ++ (n1 ++ (n2 ++ n3))

/-- Form `nnn` (R93). -/
def wordNNN (family : Nibble) (nnn : Addr) : Word := family ++ nnn

/-- Forms `xnn` and `x` (R93); in form `x` the low byte is fixed. -/
def wordXNN (family x : Nibble) (nn : Byte) : Word := family ++ (x ++ nn)

/-- The word of an instruction (R97, R98). -/
def encode : Instr → Word
  | .cls => 0x00E0#16
  | .ret => 0x00EE#16
  | .exit => 0x00FD#16
  | .jp nnn => wordNNN 0x1#4 nnn
  | .call nnn => wordNNN 0x2#4 nnn
  | .seImm x nn => wordXNN 0x3#4 x nn
  | .sneImm x nn => wordXNN 0x4#4 x nn
  | .seReg x y => wordOfNibbles 0x5#4 x y 0x0#4
  | .ldImm x nn => wordXNN 0x6#4 x nn
  | .addImm x nn => wordXNN 0x7#4 x nn
  | .ldReg x y => wordOfNibbles 0x8#4 x y 0x0#4
  | .orReg x y => wordOfNibbles 0x8#4 x y 0x1#4
  | .andReg x y => wordOfNibbles 0x8#4 x y 0x2#4
  | .xorReg x y => wordOfNibbles 0x8#4 x y 0x3#4
  | .addReg x y => wordOfNibbles 0x8#4 x y 0x4#4
  | .subReg x y => wordOfNibbles 0x8#4 x y 0x5#4
  | .shr x y => wordOfNibbles 0x8#4 x y 0x6#4
  | .subnReg x y => wordOfNibbles 0x8#4 x y 0x7#4
  | .shl x y => wordOfNibbles 0x8#4 x y 0xE#4
  | .sneReg x y => wordOfNibbles 0x9#4 x y 0x0#4
  | .ldI nnn => wordNNN 0xA#4 nnn
  | .jpV0 nnn => wordNNN 0xB#4 nnn
  | .rnd x nn => wordXNN 0xC#4 x nn
  | .drw x y n => wordOfNibbles 0xD#4 x y n
  | .skp x => wordXNN 0xE#4 x 0x9E#8
  | .sknp x => wordXNN 0xE#4 x 0xA1#8
  | .ldVxDt x => wordXNN 0xF#4 x 0x07#8
  | .ldVxK x => wordXNN 0xF#4 x 0x0A#8
  | .ldDtVx x => wordXNN 0xF#4 x 0x15#8
  | .ldStVx x => wordXNN 0xF#4 x 0x18#8
  | .addI x => wordXNN 0xF#4 x 0x1E#8
  | .ldF x => wordXNN 0xF#4 x 0x29#8
  | .ldB x => wordXNN 0xF#4 x 0x33#8
  | .storeRegs x => wordXNN 0xF#4 x 0x55#8
  | .loadRegs x => wordXNN 0xF#4 x 0x65#8
  | .unimpl00CN n => wordOfNibbles 0x0#4 0x0#4 0xC#4 n
  | .unimpl00FB => 0x00FB#16
  | .unimpl00FC => 0x00FC#16
  | .unimpl00FE => 0x00FE#16
  | .unimpl00FF => 0x00FF#16
  | .unimpl0NNN nnn => wordNNN 0x0#4 nnn
  | .unimplFX75 x => wordXNN 0xF#4 x 0x75#8
  | .unimplFX85 x => wordXNN 0xF#4 x 0x85#8

/-- The byte at pc: bits 15:8 of the word (R91). -/
def highByte (op : Word) : Byte := op.extractLsb' 8 8

/-- The byte at pc + 1: bits 7:0 of the word (R91). -/
def lowByte (op : Word) : Byte := op.extractLsb' 0 8

/-- The two bytes of an instruction as memory holds them, the byte at pc first (20_memory.md R65). -/
def encodeBytes (i : Instr) : List Byte := [highByte (encode i), lowByte (encode i)]

/-! ### The opcode table's match and mask (R97, R98), against which the encoder is held -/

/-- The mask of the instruction's row. -/
def Instr.mask : Instr → Word
  | .cls | .ret | .exit | .unimpl00FB | .unimpl00FC | .unimpl00FE | .unimpl00FF => 0xFFFF#16
  | .unimpl00CN _ => 0xFFF0#16
  | .jp _ | .call _ | .ldI _ | .jpV0 _ | .unimpl0NNN _ => 0xF000#16
  | .seImm _ _ | .sneImm _ _ | .ldImm _ _ | .addImm _ _ | .rnd _ _ | .drw _ _ _ => 0xF000#16
  | .seReg _ _ | .sneReg _ _ | .ldReg _ _ | .orReg _ _ | .andReg _ _ | .xorReg _ _ | .addReg _ _ => 0xF00F#16
  | .subReg _ _ | .shr _ _ | .subnReg _ _ | .shl _ _ => 0xF00F#16
  | .skp _ | .sknp _ | .ldVxDt _ | .ldVxK _ | .ldDtVx _ | .ldStVx _ | .addI _ | .ldF _ | .ldB _ => 0xF0FF#16
  | .storeRegs _ | .loadRegs _ | .unimplFX75 _ | .unimplFX85 _ => 0xF0FF#16

/-- The match of the instruction's row. -/
def Instr.matchBits : Instr → Word
  | .cls => 0x00E0#16
  | .ret => 0x00EE#16
  | .exit => 0x00FD#16
  | .jp _ => 0x1000#16
  | .call _ => 0x2000#16
  | .seImm _ _ => 0x3000#16
  | .sneImm _ _ => 0x4000#16
  | .seReg _ _ => 0x5000#16
  | .ldImm _ _ => 0x6000#16
  | .addImm _ _ => 0x7000#16
  | .ldReg _ _ => 0x8000#16
  | .orReg _ _ => 0x8001#16
  | .andReg _ _ => 0x8002#16
  | .xorReg _ _ => 0x8003#16
  | .addReg _ _ => 0x8004#16
  | .subReg _ _ => 0x8005#16
  | .shr _ _ => 0x8006#16
  | .subnReg _ _ => 0x8007#16
  | .shl _ _ => 0x800E#16
  | .sneReg _ _ => 0x9000#16
  | .ldI _ => 0xA000#16
  | .jpV0 _ => 0xB000#16
  | .rnd _ _ => 0xC000#16
  | .drw _ _ _ => 0xD000#16
  | .skp _ => 0xE09E#16
  | .sknp _ => 0xE0A1#16
  | .ldVxDt _ => 0xF007#16
  | .ldVxK _ => 0xF00A#16
  | .ldDtVx _ => 0xF015#16
  | .ldStVx _ => 0xF018#16
  | .addI _ => 0xF01E#16
  | .ldF _ => 0xF029#16
  | .ldB _ => 0xF033#16
  | .storeRegs _ => 0xF055#16
  | .loadRegs _ => 0xF065#16
  | .unimpl00CN _ => 0x00C0#16
  | .unimpl00FB => 0x00FB#16
  | .unimpl00FC => 0x00FC#16
  | .unimpl00FE => 0x00FE#16
  | .unimpl00FF => 0x00FF#16
  | .unimpl0NNN _ => 0x0000#16
  | .unimplFX75 _ => 0xF075#16
  | .unimplFX85 _ => 0xF085#16

/-! ### The opcode table's numbering of bits -/

/-- What the decoder reads from an instruction whose bits are `w`, bit 0 the least significant bit of the 16-bit word; bits at and
above `nbits` are 0. The word is laid out as memory holds it, the byte with bits 15:8 first. -/
def decodeTableWord (nbits w : Nat) : Option Instr :=
  let op : Word := BitVec.ofNat 16 (w % 2 ^ nbits)
  match decode [highByte op, lowByte op] with
  | .instr i _ => some i
  | .unknownOpcode _ => none
  | .truncated => none

end Sys2Proof
end

