-- ==== Sys2Proof/Machine/Unimplemented.lean ====
section
/-! DEFINITION. The 8 recognised-but-unimplemented patterns (spec 40_control_flow.md R129): each raises UnimplementedOpcode with the
word as detail, and has no other effect (R130). -/

namespace Sys2Proof.Machine

/-- `raise UnimplementedOpcode(op)` (R129, 60_exceptions.md R223). -/
def State.raiseUnimplemented (s : State) (i : Instr) : State := s.raise .unimplementedOpcode (encode i).toNat

/-- 00CN -/
def execUnimpl00CN (n : Nibble) (s : State) : Result := .next (s.raiseUnimplemented (.unimpl00CN n))

/-- 00FB -/
def execUnimpl00FB (s : State) : Result := .next (s.raiseUnimplemented .unimpl00FB)

/-- 00FC -/
def execUnimpl00FC (s : State) : Result := .next (s.raiseUnimplemented .unimpl00FC)

/-- 00FE -/
def execUnimpl00FE (s : State) : Result := .next (s.raiseUnimplemented .unimpl00FE)

/-- 00FF -/
def execUnimpl00FF (s : State) : Result := .next (s.raiseUnimplemented .unimpl00FF)

/-- 0NNN -/
def execUnimpl0NNN (nnn : Addr) (s : State) : Result := .next (s.raiseUnimplemented (.unimpl0NNN nnn))

/-- FX75 -/
def execUnimplFX75 (x : Nibble) (s : State) : Result := .next (s.raiseUnimplemented (.unimplFX75 x))

/-- FX85 -/
def execUnimplFX85 (x : Nibble) (s : State) : Result := .next (s.raiseUnimplemented (.unimplFX85 x))

end Sys2Proof.Machine
end

