-- ==== Sys2Proof/Machine/Cycle.lean ====
section
/-! DEFINITION. The step cycle of the core (spec 40_control_flow.md R120). -/

namespace Sys2Proof.Machine

/-- `Step` (R120) for a running core: fetch, decode, execute. A fetch with pc above 4094 raises PcOutOfRange (60_exceptions.md R229); a
word in no row of the opcode table raises UnknownOpcode (R131). -/
def State.runningStep (s : State) : Result :=
  match s.fetch with
  | none => .next (s.raise .pcOutOfRange s.pc.toNat)
  | some op =>
    match decodeWord op with
    | none => .next (s.raise .unknownOpcode op.toNat)
    | some i => exec i s

/-- The core's answer to a step request: a step where the status is Running, nothing otherwise (10_state.md R41, R46, 70_reset_and_hazards.md
R267). -/
def State.coreStep (s : State) : Result :=
  match s.status with
  | .running => s.runningStep
  | .halted => .next s.idle
  | .faulted _ _ _ => .next s.idle

/-- The host's events that fall before the step, the core's step, and the host's turn over (60_exceptions.md R236, log 7). -/
def State.cycle (s : State) : Result :=
  match s.hostMoves.coreStep with
  | .next t => .next t.endTurn
  | .fault r => .fault r
  | .refused r => .refused r

/-- The word `w` of `nbits` bits, numbered as the opcode table numbers them, placed where the next step fetches. -/
def State.placeTableWord (s : State) (nbits w : Nat) : State :=
  let op : Word := BitVec.ofNat 16 (w % 2 ^ nbits)
  s.placeBytes (highByte op) (lowByte op)

end Sys2Proof.Machine
end

