-- ==== Sys2Proof/Machine/Step.lean ====
section
/-! DEFINITION. The step of the machine, and the placing of one instruction word for the next step. -/

namespace Sys2Proof.Machine

/-- One step request with the host's turn before it (spec 40_control_flow.md R120, 60_exceptions.md R236). -/
def step (s : State) : Host.Outcome State Fault Refusal := s.cycle

/-- The state with the instruction whose bits are `w` (at and above `nbits` zero) stored where `step` fetches next (log 12, log 13). -/
def State.withFetchWord (s : State) (nbits w : Nat) : State := s.placeTableWord nbits w

end Sys2Proof.Machine
end

