-- ==== Sys2Proof/Machine/Ports.lean ====
section
/-! DEFINITION. The read-only views the host has of the core (spec 10_state.md R44, R52). `cont` and `redraw` are fields of the
state. -/

namespace Sys2Proof.Machine

/-- The numeric code of a cause (60_exceptions.md R221). -/
def Cause.code : Cause → Nibble
  | .loadError => 1
  | .unimplementedOpcode => 2
  | .unknownOpcode => 3
  | .stackOverflow => 4
  | .stackUnderflow => 5
  | .addressOutOfRange => 6
  | .pcOutOfRange => 7
  | .keyIndexOutOfRange => 8
  | .storeToProtected => 9

/-- `fault_cause`, `fault_pc` and `fault_detail`; `none` where `fault_valid` = 0 (R52). -/
def State.faultReport (s : State) : Option (Nibble × Word × BitVec 20) :=
  match s.status with
  | .faulted c fpc detail => some (c.code, fpc, detail)
  | _ => none

/-- `fault_valid` (R52). -/
def State.faultValid (s : State) : Bool := s.faultReport.isSome

/-- `fb_read(k)` (R52). -/
def State.fbRead (s : State) (k : Nat) : Bool := pixel s.fb k

/-- `dt_out` (R52). -/
def State.dtOut (s : State) : Byte := s.dt

/-- `st_out` (R52). -/
def State.stOut (s : State) : Byte := s.st

/-- `sound_on` = (st > 0) (R36, R52). -/
def State.soundOn (s : State) : Bool := decide (0 < s.st.toNat)

end Sys2Proof.Machine
end

