-- ==== Sys2Proof/Machine/Reset.lean ====
section
/-! DEFINITION. Reset and program load (spec 70_reset_and_hazards.md R260 to R264). -/

namespace Sys2Proof.Machine

/-- Reset with parameters `c` and the program image `program`: the image is copied from 512 upward (R262); an image longer than
3584 bytes is not copied and leaves the fault LoadError (R263). -/
def State.resetWith (c : Config) (program : List Byte) : State :=
  let s := { State.reset with cfg := c }
  if program.length > 3584 then
    { s with status := .faulted .loadError 0x200#16 (BitVec.ofNat 20 (min program.length 0xFFFFF)) }
  else { s with mem := Memory.writeAll c [] 512 program }

/-- The reset port asserted on a machine that has run, with a new image: the same effect as the first time (R260). The parameters
stay, and the host's turns go on where they were (log 8). -/
def State.assertReset (s : State) (program : List Byte) : State :=
  { State.resetWith s.cfg program with script := s.script, turn := s.turn }

end Sys2Proof.Machine
end

