-- ==== Sys2Proof/Safety.lean ====
section
/-! DEFINITION. The terms the statements use: what a run's end is, what an instruction leaves unchanged, and the invariant of the
reachable states. -/

namespace Sys2Proof.Machine

/-! ### The end of a run (spec 70_reset_and_hazards.md R267) -/

/-- The run has ended: no step executes an instruction any more. -/
def State.ended (s : State) : Bool := s.status != .running

/-- The only successful end. -/
def State.endedWell (s : State) : Bool := s.status == .halted

/-! ### Frames -/

/-- What an instruction may write, beside pc and the outputs `cont` and `redraw`. -/
structure Writes where
  /-- V registers -/
  regs : List Nibble := []
  /-- I -/
  index : Bool := false
  /-- the call stack and sp -/
  stack : Bool := false
  /-- dt -/
  delay : Bool := false
  /-- st -/
  sound : Bool := false
  /-- the framebuffer -/
  pixels : Bool := false
  /-- the status latch -/
  status : Bool := false
  /-- memory addresses -/
  bytes : List Nat := []
  deriving DecidableEq, Repr

/-- From `s` to `t` nothing changes but what `w` lists, pc and the outputs. Memory is compared byte by byte, through the machine's
read of one byte. -/
def State.KeepsBut (w : Writes) (s t : State) : Prop :=
  (∀ r, r ∉ w.regs → t.reg r = s.reg r) ∧
  (w.index = false → t.I = s.I) ∧
  (w.stack = false → t.stack = s.stack ∧ t.sp = s.sp) ∧
  (w.delay = false → t.dt = s.dt) ∧
  (w.sound = false → t.st = s.st) ∧
  (w.pixels = false → t.fb = s.fb) ∧
  (w.status = false → t.status = s.status) ∧
  (∀ a, a ∉ w.bytes → t.load a = s.load a) ∧
  t.keys = s.keys ∧ t.cfg = s.cfg ∧ t.script = s.script ∧ t.turn = s.turn

/-- `t` is `s` after a step that completes with `cont` = 1: this pc, this `redraw` (10_state.md R51). -/
def State.CompletesAt (t : State) (pc : Word) (redraw : Bool) : Prop :=
  t.pc = pc ∧ t.cont = true ∧ t.redraw = redraw

/-- `t` is `s` after `raise F(detail)`: the status latch and the outputs as 60_exceptions.md R228 says, and no other change. -/
def State.FaultsTo (s t : State) (c : Cause) (detail : Nat) : Prop :=
  t.status = .faulted c s.pc (BitVec.ofNat 20 detail) ∧ t.cont = false ∧ t.redraw = false ∧ t.pc = s.pc ∧
    s.KeepsBut { status := true } t

/-! ### Where pc goes (10_state.md R30) -/

/-- P + 4 where the condition of a skip holds, else P + 2. -/
def skipTarget (p : Nat) (cond : Prop) [Decidable cond] : Nat := if cond then p + 4 else p + 2

/-- pc after an instruction that raises no fault, by the table of 10_state.md R30, as a number: nothing is reduced. -/
def State.pcAfter (s : State) (i : Instr) : Nat :=
  let p := s.pc.toNat
  match i with
  | .jp nnn => nnn.toNat
  | .call nnn => nnn.toNat
  | .jpV0 nnn => nnn.toNat + (s.reg 0).toNat
  | .ret => if h : 0 < s.sp.val then (s.stack[s.sp.val - 1]'(by have := s.sp.isLt; omega)).toNat + 2 else p
  | .seImm x nn => skipTarget p ((s.reg x).toNat = nn.toNat)
  | .sneImm x nn => skipTarget p ((s.reg x).toNat ≠ nn.toNat)
  | .seReg x y => skipTarget p (s.reg x = s.reg y)
  | .sneReg x y => skipTarget p (s.reg x ≠ s.reg y)
  | .skp x => skipTarget p (∃ k : Nibble, k.toNat = (s.reg x).toNat ∧ s.keyDown k = true)
  | .sknp x => skipTarget p (∃ k : Nibble, k.toNat = (s.reg x).toNat ∧ s.keyDown k = false)
  | .ldVxK _ => if s.input.key = none then p else p + 2
  | _ => p + 2

/-! ### The sprite of DXYN (45_draw.md R194 to R197, R204, R205) -/

/-- x0: the start column; where X is F the register reads 0 (R204). -/
def State.spriteCol (s : State) (x : Nibble) : Nat := if x = VF then 0 else (s.reg x).toNat % 64

/-- y0: the start row; where Y is F the register reads 0 (R204). -/
def State.spriteRow (s : State) (y : Nibble) : Nat := if y = VF then 0 else (s.reg y).toNat % 32

/-- rows: how many rows are drawn (R195). -/
def State.spriteRows (s : State) (y n : Nibble) : Nat := min n.toNat (32 - s.spriteRow y)

/-- cols: how many columns are drawn (R196). -/
def State.spriteCols (s : State) (x : Nibble) : Nat := min 8 (64 - s.spriteCol x)

/-- s(r, c): the sprite bit of row r and column c (R197, R205). -/
def State.spriteAt (s : State) (r c : Nat) : Bool := (s.load (s.I.toNat + r)).getLsbD (7 - c)

/-- The framebuffer cell of the sprite's row r and column c (R205). -/
def State.spriteCell (s : State) (x y : Nibble) (r c : Nat) : Nat := (s.spriteRow y + r) * 64 + (s.spriteCol x + c)

/-- The sprite's bytes that are drawn lie in memory (R202). -/
def State.spriteFits (s : State) (y n : Nibble) : Prop := s.spriteRows y n = 0 ∨ s.I.toNat + s.spriteRows y n - 1 ≤ 4095

/-! ### What memory reads as after a store of several bytes (43_index_memory.md R174, R175; 20_memory.md R69) -/

/-- A completed FX55 or FX33 writes the address: it is one of the `n` from I upward, and at 512 or above unless the policy is allow. -/
abbrev State.storesAt (s : State) (n a : Nat) : Prop :=
  s.I.toNat ≤ a ∧ a < s.I.toNat + n ∧ (512 ≤ a ∨ s.cfg.lowWritePolicy = .allow)

/-- The byte at `a` after FX55 of V0 to VX from `s`, where it completes. -/
def State.byteAfterBulkStore (s : State) (x : Nibble) (a : Nat) : Byte :=
  if s.storesAt (x.toNat + 1) a then BitVec.ofNat 8 (s.reg (BitVec.ofNat 4 (a - s.I.toNat))).toNat else s.load a

/-- The byte at `a` after FX33 of VX from `s`, where it completes. -/
def State.byteAfterBcdStore (s : State) (x : Nibble) (a : Nat) : Byte :=
  if s.storesAt 3 a then
    BitVec.ofNat 8 (if a = s.I.toNat then (s.reg x).toNat / 100
      else if a = s.I.toNat + 1 then (s.reg x).toNat / 10 % 10 else (s.reg x).toNat % 10)
  else s.load a

/-! ### The codes of the faults -/

/-- The codes of the causes, as the table of 60_exceptions.md R221 lists them. -/
def faultCodes : List (Cause × Nibble) :=
  [(.loadError, 1), (.unimplementedOpcode, 2), (.unknownOpcode, 3), (.stackOverflow, 4), (.stackUnderflow, 5),
    (.addressOutOfRange, 6), (.pcOutOfRange, 7), (.keyIndexOutOfRange, 8), (.storeToProtected, 9)]

/-! ### The invariant of the reachable states -/

/-- I is at most 0xFFF (10_state.md R27). -/
def State.indexOk (s : State) : Prop := s.I.toNat ≤ 0xFFF

/-- Every pending return is the address of an executed call (40_control_flow.md R124). -/
def State.stackOk (s : State) : Prop := ∀ k : Fin 48, k.val < s.sp.val → s.stack[k].toNat ≤ 4094

/-- Where 8XYE masks its result, every V cell is at most 255 (10_state.md R23 (a)). -/
def State.cellsOk (s : State) : Prop := s.cfg.shlMask8 = true → ∀ r, (s.reg r).toNat ≤ 255

/-- Where the policy does not allow stores below 512, every byte there is as reset left it (20_memory.md R62, R64). -/
def State.lowOk (s : State) : Prop :=
  s.cfg.lowWritePolicy ≠ .allow → ∀ a, a < 512 → s.load a = Memory.blank s.cfg a

/-- Memory is in canonical form. -/
def State.memOk (s : State) : Prop := Memory.wf s.cfg s.mem = true

/-- pc points at the faulting instruction for as long as the fault is recorded (60_exceptions.md R228). -/
def State.faultOk (s : State) : Prop := ∀ c fpc d, s.status = .faulted c fpc d → s.pc = fpc

/-- The invariant of the reachable states. -/
def State.Inv (s : State) : Prop :=
  s.memOk ∧ s.indexOk ∧ s.stackOk ∧ s.cellsOk ∧ s.lowOk ∧ s.faultOk

end Sys2Proof.Machine
end

