-- ==== Sys2Proof/Certificates/Slice0/Obligations.lean ====
section
/-! DEFINITION. The statements about the machine, each formalising rules of the spec. A value or behaviour that the model chose and no
rule of the spec states is named in the docstring of the statement that rests on it. -/

open Sys2Proof Sys2Proof.Machine

/-! ### Encoding and decoding -/

/-- Words written out bit by bit from the opcode table decode to their instructions, one or more of each of the sixteen families (the value
of nibble0, 00_scope.md R15; 30_encoding.md R92, R95, R97, R98); two words of no row decode to none (R99). -/
def Obligations.WordsDecodeAsWritten : Prop :=
  decodeWord 0b0000000011100000#16 = some .cls ∧
  decodeWord 0b0000000011111101#16 = some .exit ∧
  decodeWord 0b0001001000110100#16 = some (.jp 0x234#12) ∧
  decodeWord 0b0010001100000000#16 = some (.call 0x300#12) ∧
  decodeWord 0b0011001100101010#16 = some (.seImm 0x3#4 0x2A#8) ∧
  decodeWord 0b0100001100101010#16 = some (.sneImm 0x3#4 0x2A#8) ∧
  decodeWord 0b0101000100100000#16 = some (.seReg 0x1#4 0x2#4) ∧
  decodeWord 0b0110101001111111#16 = some (.ldImm 0xA#4 0x7F#8) ∧
  decodeWord 0b0111000100000010#16 = some (.addImm 0x1#4 0x02#8) ∧
  decodeWord 0b1000000100101110#16 = some (.shl 0x1#4 0x2#4) ∧
  decodeWord 0b1001000100100000#16 = some (.sneReg 0x1#4 0x2#4) ∧
  decodeWord 0b1010001011110000#16 = some (.ldI 0x2F0#12) ∧
  decodeWord 0b1011001100000000#16 = some (.jpV0 0x300#12) ∧
  decodeWord 0b1100001100001111#16 = some (.rnd 0x3#4 0x0F#8) ∧
  decodeWord 0b1101000100100101#16 = some (.drw 0x1#4 0x2#4 0x5#4) ∧
  decodeWord 0b1110010010011110#16 = some (.skp 0x4#4) ∧
  decodeWord 0b1111010100001010#16 = some (.ldVxK 0x5#4) ∧
  decodeWord 0b0000000011000011#16 = some (.unimpl00CN 0x3#4) ∧
  decodeWord 0b0000000000000000#16 = some (.unimpl0NNN 0x000#12) ∧
  decodeWord 0b0101000100100001#16 = none ∧
  decodeWord 0b1111000100000000#16 = none

/-- Decode after encode, for every well-formed instruction and every operand value (30_encoding.md R92, R95 to R98). -/
def Obligations.DecodeAfterEncode : Prop :=
  ∀ i : Instr, i.wellFormed = true → decodeWord (encode i) = some i

/-- Encode after decode: a word that decodes is the word of the instruction it decodes to, and that instruction is well-formed; so no
two instructions share a word (30_encoding.md R95 to R98, R101). -/
def Obligations.EncodeAfterDecode : Prop :=
  ∀ (op : Word) (i : Instr), decodeWord op = some i → encode i = op ∧ i.wellFormed = true

/-- The unknown words are exactly those of the table of 30_encoding.md R99. -/
def Obligations.UnknownWordsAreThoseListed : Prop :=
  ∀ op : Word, decodeWord op = none ↔
    (nibble0 op = 0x5#4 ∧ fieldN op ≠ 0x0#4) ∨
    (nibble0 op = 0x8#4 ∧ fieldN op ∈ [0x8#4, 0x9#4, 0xA#4, 0xB#4, 0xC#4, 0xD#4, 0xF#4]) ∨
    (nibble0 op = 0x9#4 ∧ fieldN op ≠ 0x0#4) ∨
    (nibble0 op = 0xE#4 ∧ fieldNN op ∉ [0x9E#8, 0xA1#8]) ∨
    (nibble0 op = 0xF#4 ∧ fieldNN op ∉
      [0x07#8, 0x0A#8, 0x15#8, 0x18#8, 0x1E#8, 0x29#8, 0x33#8, 0x55#8, 0x65#8, 0x75#8, 0x85#8])

/-! ### The step -/

/-- A step runs the decoded instruction: the host's moves before the step, then exec of the instruction at pc, then the host's turn is
over (40_control_flow.md R120; the host's turns are the model's, log 3 and log 7). -/
def Obligations.StepRunsDecodedInstruction : Prop :=
  ∀ (s : State) (i : Instr), s.status = .running → s.pc.toNat ≤ 4094 →
    decodeWord (s.load s.pc.toNat ++ s.load (s.pc.toNat + 1)) = some i →
    step s = match exec i s.hostMoves with
      | .next t => .next t.endTurn
      | .fault r => .fault r
      | .refused r => .refused r

/-- The host's moves before a step are its events in order, any number of them, and they write the key latch and the timers only
(20_memory.md R72, 60_exceptions.md R236). `key_write(k, v)` makes `keys[k]` v and leaves the other 15 flags and the timers (10_state.md R48);
`timer_tick` is the tick (R50). That they fall before the instruction of the same step is the model's (log 7). -/
def Obligations.HostMovesAreTheEvents : Prop :=
  ∀ s : State, s.hostMoves = s.hostEvents s.input.events ∧ s.hostEvents [] = s ∧
    (∀ (e : HostEvent) (evs : List HostEvent), s.hostEvents (e :: evs) = (s.hostEvents [e]).hostEvents evs) ∧
    (∀ evs : List HostEvent, s.hostEvents evs =
      { s with keys := (s.hostEvents evs).keys, dt := (s.hostEvents evs).dt, st := (s.hostEvents evs).st }) ∧
    (∀ (k : Nibble) (v : Bool), (s.hostEvents [.keyWrite k v]).dt = s.dt ∧ (s.hostEvents [.keyWrite k v]).st = s.st ∧
      ∀ q : Nibble, (s.hostEvents [.keyWrite k v]).keyDown q = if q = k then v else s.keyDown q) ∧
    s.hostEvents [.timerTick] = s.timerTick

/-- The timer tick (60_exceptions.md R244): both timers, each saturating at 0; nothing else changes, whatever the status is. -/
def Obligations.TimerTickDecrementsBoth : Prop :=
  ∀ s : State,
    (0 < s.dt.toNat → s.timerTick.dt.toNat = s.dt.toNat - 1) ∧ (s.dt.toNat = 0 → s.timerTick.dt.toNat = 0) ∧
    (0 < s.st.toNat → s.timerTick.st.toNat = s.st.toNat - 1) ∧ (s.st.toNat = 0 → s.timerTick.st.toNat = 0) ∧
    s.KeepsBut { delay := true, sound := true } s.timerTick ∧
    s.timerTick.pc = s.pc ∧ s.timerTick.cont = s.cont ∧ s.timerTick.redraw = s.redraw

/-- A fetch with pc above 4094 raises PcOutOfRange(pc) and nothing executes (20_memory.md R66, 60_exceptions.md R229). -/
def Obligations.FetchOutOfRangeFaults : Prop :=
  ∀ s : State, s.status = .running → 4094 < s.pc.toNat →
    ∃ t, s.hostMoves.FaultsTo t .pcOutOfRange s.pc.toNat ∧ step s = .next t.endTurn

/-- A word in no row of the opcode table raises UnknownOpcode with the word as detail; the fault report carries code 3, the address and
the two bytes (40_control_flow.md R131, 60_exceptions.md R224). -/
def Obligations.UnknownWordFaults : Prop :=
  ∀ (s : State) (op : Word), s.status = .running → s.fetch = some op → decodeWord op = none →
    ∃ t, s.hostMoves.FaultsTo t .unknownOpcode op.toNat ∧
      t.faultReport = some (0x3#4, s.pc, BitVec.ofNat 20 op.toNat) ∧ step s = .next t.endTurn

/-- After the end of the run (10_state.md R46, 60_exceptions.md R234, 70_reset_and_hazards.md R267) a step request gives the state after the
host's moves, with the outputs at 0 and nothing else changed: keys, dt and st are as the host's events leave them (the timers keep running
under `timer_tick`: 40_control_flow.md R125, 60_exceptions.md R244). Any number of step requests changes nothing of the rest of the core,
and the recorded fault stays. -/
def Obligations.EndedRunStaysEnded : Prop :=
  ∀ (s : State), s.ended = true →
    step s = .next (State.endTurn { s.hostMoves with cont := false, redraw := false }) ∧
    ∀ k : Nat, ∃ t, core.run k s = .next t ∧
      t.mem = s.mem ∧ t.V = s.V ∧ t.I = s.I ∧ t.pc = s.pc ∧ t.stack = s.stack ∧ t.sp = s.sp ∧ t.fb = s.fb ∧
      t.status = s.status ∧ (0 < k → t.cont = false ∧ t.redraw = false)

/-- A step of a running core has exactly one of three outcomes, told apart by the status: it completes with `cont` = 1; it executed 00FD,
`cont` = 0 and the core is Halted; it raised a fault and nothing else changed (60_exceptions.md R220). -/
def Obligations.StepHasOneOfThreeOutcomes : Prop :=
  ∀ s : State, s.status = .running →
    ∃ t, step s = .next t ∧
      ((t.status = .running ∧ t.cont = true) ∨
       (t.status = .halted ∧ t.cont = false ∧ s.fetch = some 0x00FD#16) ∨
       (∃ u c d, s.hostMoves.FaultsTo u c d ∧ t = u.endTurn))

/-- Every fault is precise (60_exceptions.md R228): the status latch records cause, pc and detail, the outputs are 0, `fault_valid` is 1,
and every other field is as when the step began, after the host's moves. The fault report then carries the code that the table of R221
gives the cause, the address and the detail (10_state.md R52). -/
def Obligations.FaultsArePrecise : Prop :=
  ∀ (s t : State) (c : Cause) (p : Word) (d : BitVec 20), s.status = .running → step s = .next t →
    t.status = .faulted c p d →
    t = State.endTurn { s.hostMoves with status := .faulted c s.pc d, cont := false, redraw := false } ∧
      t.faultValid = true ∧ ∃ code, (c, code) ∈ faultCodes ∧ t.faultReport = some (code, s.pc, d)

/-- The outputs of a step (10_state.md R51): `cont` is 0 exactly when the step executed 00FD or faulted; `redraw` is 1 exactly when it
executed 00E0 or DXYN to completion. -/
def Obligations.OutputsOfEachStep : Prop :=
  ∀ s t : State, s.status = .running → step s = .next t →
    (t.cont = false ↔ s.fetch = some 0x00FD#16 ∨ t.faultValid = true) ∧
    (t.redraw = true ↔ t.faultValid = false ∧ ∃ op, s.fetch = some op ∧ (op = 0x00E0#16 ∨ nibble0 op = 0xD#4))

/-- How each instruction leaves pc, by the table of 10_state.md R30, as a number that is never reduced; a fault leaves it. The premises are
the fetch's precondition and that the pending returns are addresses of executed calls, which `StepKeepsReachableForm` keeps. -/
def Obligations.PcAfterEachInstruction : Prop :=
  ∀ (i : Instr) (s t : State), s.status = .running → s.pc.toNat ≤ 4094 → s.stackOk → exec i s = .next t →
    t.pc.toNat = if t.faultValid = true then s.pc.toNat else s.pcAfter i

/-- Every instruction answers a next state in every state: no fault or refusal of the model's own (60_exceptions.md R220, R239; that an
error of the spec is a next state is the model's reading, log 5). -/
def Obligations.EveryInstructionAnswers : Prop :=
  ∀ (i : Instr) (s : State), ∃ t, exec i s = .next t

/-- Over any number of steps the parameters stay, one host turn is used up a step, and the script is consumed in order (10_state.md R43;
the turns are the model's, log 3). -/
def Obligations.RunKeepsParameters : Prop :=
  ∀ (k : Nat) (s : State), ∃ t, core.run k s = .next t ∧ t.cfg = s.cfg ∧ t.turn = s.turn + k ∧ t.script = s.script.drop k

/-! ### Invariants and whole-machine rules -/

/-- The invariant of the reachable states holds right after reset. -/
def Obligations.ResetHasReachableForm : Prop := State.reset.Inv

/-- It holds after every reset, whatever the parameters and the program image, also one that is too long (10_state.md R53,
70_reset_and_hazards.md R262, R263). -/
def Obligations.EveryResetHasReachableForm : Prop :=
  ∀ (c : Config) (program : List Byte), (State.resetWith c program).Inv

/-- Every step keeps it: memory in canonical form, I at most 0xFFF (10_state.md R27), pending returns addresses of executed calls, no V
cell above 255 where 8XYE masks (R23 (a)), the bytes below 512 as reset left them unless stores there are allowed (20_memory.md R62, R64),
pc at the faulting instruction (60_exceptions.md R228). -/
def Obligations.StepKeepsReachableForm : Prop :=
  ∀ s t : State, s.Inv → step s = .next t → t.Inv

/-- Which instructions write which state: I only ANNN, FX1E, FX29 (10_state.md R27); the stack only 2NNN and 00EE (R32); dt only FX15
(R35); st only FX18 (R36); the framebuffer only 00E0 and DXYN (R39); memory only FX33 and FX55 (20_memory.md R70); the latch and the
parameters none (10_state.md R40, R43). -/
def Obligations.OnlyTheseInstructionsWrite : Prop :=
  ∀ (i : Instr) (s t : State), exec i s = .next t →
    (t.I ≠ s.I → (∃ n, i = .ldI n) ∨ (∃ x, i = .addI x) ∨ (∃ x, i = .ldF x)) ∧
    (t.stack ≠ s.stack ∨ t.sp ≠ s.sp → (∃ n, i = .call n) ∨ i = .ret) ∧
    (t.dt ≠ s.dt → ∃ x, i = .ldDtVx x) ∧
    (t.st ≠ s.st → ∃ x, i = .ldStVx x) ∧
    (t.fb ≠ s.fb → i = .cls ∨ ∃ x y n, i = .drw x y n) ∧
    (t.mem ≠ s.mem → (∃ x, i = .ldB x) ∨ (∃ x, i = .storeRegs x)) ∧
    t.keys = s.keys ∧ t.cfg = s.cfg ∧ t.script = s.script ∧ t.turn = s.turn

/-- Which instructions write VF: the seven that write it as a flag, and those that name it as their destination (10_state.md R25). -/
def Obligations.OnlyTheseInstructionsWriteVF : Prop :=
  ∀ (i : Instr) (s t : State), exec i s = .next t → t.reg VF ≠ s.reg VF →
    (∃ x y, i = .addReg x y ∨ i = .subReg x y ∨ i = .shr x y ∨ i = .subnReg x y ∨ i = .shl x y) ∨
    (∃ x, i = .addI x) ∨ (∃ x y n, i = .drw x y n) ∨
    (∃ nn, i = .ldImm VF nn ∨ i = .addImm VF nn ∨ i = .rnd VF nn) ∨
    (∃ y, i = .ldReg VF y ∨ i = .orReg VF y ∨ i = .andReg VF y ∨ i = .xorReg VF y) ∨
    i = .ldVxDt VF ∨ i = .ldVxK VF ∨ i = .loadRegs VF

/-- The step's inputs: only CXNN reads the random byte and only FX0A the current key (10_state.md R47, R49). For every other instruction,
other host turns give the same next state but for those turns (the fields that hold the turns are the model's, log 3). -/
def Obligations.OnlyTwoInstructionsReadTheInputs : Prop :=
  ∀ (i : Instr) (s t : State) (script : List HostTurn) (turn : Nat),
    (∀ x nn, i ≠ .rnd x nn) → (∀ x, i ≠ .ldVxK x) → exec i s = .next t →
    exec i { s with script := script, turn := turn } = .next { t with script := script, turn := turn }

/-- The key latch is read by EX9E and EXA1 only; FX0A does not read it (10_state.md R40). -/
def Obligations.OnlyKeySkipsReadTheLatch : Prop :=
  ∀ (i : Instr) (s t : State) (keys : Vector Bool 16),
    (∀ x, i ≠ .skp x) → (∀ x, i ≠ .sknp x) → exec i s = .next t →
    exec i { s with keys := keys } = .next { t with keys := keys }

/-- No instruction reads the sound timer (10_state.md R36): from a state that differs in st alone every instruction gives the same next
state but for st, and FX18 gives the very same one. -/
def Obligations.NoInstructionReadsTheSoundTimer : Prop :=
  ∀ (i : Instr) (s t : State) (st : Byte), exec i s = .next t →
    exec i { s with st := st } = .next (if ∃ x, i = .ldStVx x then t else { t with st := st })

/-! ### Control flow -/

/-- 1NNN (40_control_flow.md R126): pc becomes NNN, for every NNN, and nothing else changes. -/
def Obligations.JumpGoesToTarget : Prop :=
  ∀ (nnn : Addr) (s : State), ∃ t, exec (.jp nnn) s = .next t ∧
    t.CompletesAt (BitVec.ofNat 16 nnn.toNat) false ∧ s.KeepsBut {} t

/-- 2NNN (40_control_flow.md R127, 10_state.md R33): with room on the stack the address of the call is pushed and pc becomes NNN; with 48
entries in use StackOverflow(48) is raised. -/
def Obligations.CallPushesAndJumps : Prop :=
  ∀ (nnn : Addr) (s : State),
    (s.sp.val < 48 → ∃ t, exec (.call nnn) s = .next t ∧
      t.CompletesAt (BitVec.ofNat 16 nnn.toNat) false ∧ t.sp.val = s.sp.val + 1 ∧
      (∀ k : Fin 48, t.stack[k] = if k.val = s.sp.val then s.pc else s.stack[k]) ∧
      s.KeepsBut { stack := true } t) ∧
    (s.sp.val = 48 → ∃ t, exec (.call nnn) s = .next t ∧ s.FaultsTo t .stackOverflow 48)

/-- 00EE (40_control_flow.md R124, 10_state.md R33): with an entry in use sp goes down by one, the cells keep their bits, and pc becomes
the newest entry plus 2, for an entry that is the address of an executed instruction (which `StepKeepsReachableForm` keeps); with none
StackUnderflow(0) is raised. -/
def Obligations.ReturnPopsAndResumes : Prop :=
  ∀ s : State,
    (∀ h : 0 < s.sp.val, ∃ t, exec .ret s = .next t ∧
      t.CompletesAt (s.stack[s.sp.val - 1]'(by have := s.sp.isLt; omega) + 2) false ∧
      ((s.stack[s.sp.val - 1]'(by have := s.sp.isLt; omega)).toNat ≤ 4094 →
        t.pc.toNat = (s.stack[s.sp.val - 1]'(by have := s.sp.isLt; omega)).toNat + 2) ∧
      t.sp.val = s.sp.val - 1 ∧ t.stack = s.stack ∧ s.KeepsBut { stack := true } t) ∧
    (s.sp.val = 0 → ∃ t, exec .ret s = .next t ∧ s.FaultsTo t .stackUnderflow 0)

/-- A call and a later return with the same call stack resume at P + 2, with sp as before the call (40_control_flow.md R124, quoting the
source's property). -/
def Obligations.ReturnResumesAfterCall : Prop :=
  ∀ (nnn : Addr) (s t u : State), s.sp.val < 48 → s.pc.toNat ≤ 4094 → exec (.call nnn) s = .next t →
    u.stack = t.stack → u.sp = t.sp →
    ∃ v, exec .ret u = .next v ∧ v.status = u.status ∧ v.pc.toNat = s.pc.toNat + 2 ∧ v.sp = s.sp

/-- BNNN (40_control_flow.md R128): the target is NNN plus the whole cell of V0, not reduced; a target above 0xFFFF raises PcOutOfRange at
the BNNN. -/
def Obligations.JumpV0GoesToSum : Prop :=
  ∀ (nnn : Addr) (s : State),
    (nnn.toNat + (s.reg 0x0#4).toNat ≤ 0xFFFF → ∃ t, exec (.jpV0 nnn) s = .next t ∧
      t.CompletesAt t.pc false ∧ t.pc.toNat = nnn.toNat + (s.reg 0x0#4).toNat ∧ s.KeepsBut {} t) ∧
    (0xFFFF < nnn.toNat + (s.reg 0x0#4).toNat → ∃ t, exec (.jpV0 nnn) s = .next t ∧
      s.FaultsTo t .pcOutOfRange (nnn.toNat + (s.reg 0x0#4).toNat))

/-- 00FD (40_control_flow.md R125): the core is Halted, pc advances by 2, `cont` and `redraw` are 0, nothing else changes. -/
def Obligations.ExitHalts : Prop :=
  ∀ s : State, ∃ t, exec .exit s = .next t ∧ t.status = .halted ∧ t.pc = s.pc + 2 ∧ t.cont = false ∧
    t.redraw = false ∧ s.KeepsBut { status := true } t

/-- 3XNN, 4XNN, 5XY0, 9XY0 (41_skips.md R141 to R144): the comparison is of whole cells; pc goes to P + 4 where the condition holds, else to
P + 2, and nothing else changes. -/
def Obligations.RegisterSkipsCompareWholeCells : Prop :=
  ∀ (x y : Nibble) (nn : Byte) (s : State),
    (∃ t, exec (.seImm x nn) s = .next t ∧ s.KeepsBut {} t ∧
      t.CompletesAt (if (s.reg x).toNat = nn.toNat then s.pc + 4 else s.pc + 2) false) ∧
    (∃ t, exec (.sneImm x nn) s = .next t ∧ s.KeepsBut {} t ∧
      t.CompletesAt (if (s.reg x).toNat ≠ nn.toNat then s.pc + 4 else s.pc + 2) false) ∧
    (∃ t, exec (.seReg x y) s = .next t ∧ s.KeepsBut {} t ∧
      t.CompletesAt (if (s.reg x).toNat = (s.reg y).toNat then s.pc + 4 else s.pc + 2) false) ∧
    (∃ t, exec (.sneReg x y) s = .next t ∧ s.KeepsBut {} t ∧
      t.CompletesAt (if (s.reg x).toNat ≠ (s.reg y).toNat then s.pc + 4 else s.pc + 2) false)

/-- EX9E and EXA1 (41_skips.md R145, R146): with V[X] at most 15 the latch flag of that key decides, whatever `current_key` is; above 15
KeyIndexOutOfRange(V[X]) is raised. -/
def Obligations.KeySkipsReadTheLatch : Prop :=
  ∀ (x k : Nibble) (s : State),
    ((s.reg x).toNat = k.toNat →
      (∃ t, exec (.skp x) s = .next t ∧ s.KeepsBut {} t ∧
        t.CompletesAt (if s.keys[k.toNat]'k.isLt = true then s.pc + 4 else s.pc + 2) false) ∧
      (∃ t, exec (.sknp x) s = .next t ∧ s.KeepsBut {} t ∧
        t.CompletesAt (if s.keys[k.toNat]'k.isLt = false then s.pc + 4 else s.pc + 2) false)) ∧
    (15 < (s.reg x).toNat →
      (∃ t, exec (.skp x) s = .next t ∧ s.FaultsTo t .keyIndexOutOfRange (s.reg x).toNat) ∧
      (∃ t, exec (.sknp x) s = .next t ∧ s.FaultsTo t .keyIndexOutOfRange (s.reg x).toNat))

/-! ### Register load, arithmetic, logic, shift, random -/

/-- 6XNN, 7XNN, 8XY0 (42_alu.md R151 to R153): VX becomes NN, the sum modulo 256, the whole cell of VY; no flag; nothing else changes. -/
def Obligations.LoadsAndAddImmediate : Prop :=
  ∀ (x y : Nibble) (nn : Byte) (s : State),
    (∃ t, exec (.ldImm x nn) s = .next t ∧ t.CompletesAt (s.pc + 2) false ∧
      (t.reg x).toNat = nn.toNat ∧ s.KeepsBut { regs := [x] } t) ∧
    (∃ t, exec (.addImm x nn) s = .next t ∧ t.CompletesAt (s.pc + 2) false ∧
      (t.reg x).toNat = ((s.reg x).toNat + nn.toNat) % 256 ∧ s.KeepsBut { regs := [x] } t) ∧
    (∃ t, exec (.ldReg x y) s = .next t ∧ t.CompletesAt (s.pc + 2) false ∧
      t.reg x = s.reg y ∧ s.KeepsBut { regs := [x] } t)

/-- 8XY1, 8XY2, 8XY3 (42_alu.md R154 to R156): bit by bit over all 16 bits of the cells; VF is not written; nothing else changes. -/
def Obligations.LogicIsBitwise : Prop :=
  ∀ (x y : Nibble) (s : State),
    (∃ t, exec (.orReg x y) s = .next t ∧ t.CompletesAt (s.pc + 2) false ∧ s.KeepsBut { regs := [x] } t ∧
      ∀ k, (t.reg x).getLsbD k = ((s.reg x).getLsbD k || (s.reg y).getLsbD k)) ∧
    (∃ t, exec (.andReg x y) s = .next t ∧ t.CompletesAt (s.pc + 2) false ∧ s.KeepsBut { regs := [x] } t ∧
      ∀ k, (t.reg x).getLsbD k = ((s.reg x).getLsbD k && (s.reg y).getLsbD k)) ∧
    (∃ t, exec (.xorReg x y) s = .next t ∧ t.CompletesAt (s.pc + 2) false ∧ s.KeepsBut { regs := [x] } t ∧
      ∀ k, (t.reg x).getLsbD k = Bool.xor ((s.reg x).getLsbD k) ((s.reg y).getLsbD k))

/-- 8XY4 (42_alu.md R157): VF is the carry of the sum of the whole cells out of 8 bits, also where X is F; where X is not F, VX is the sum
modulo 256. -/
def Obligations.AddSetsCarry : Prop :=
  ∀ (x y : Nibble) (s : State), ∃ t, exec (.addReg x y) s = .next t ∧ t.CompletesAt (s.pc + 2) false ∧
    t.reg VF = (if (s.reg x).toNat + (s.reg y).toNat ≥ 256 then 1 else 0) ∧
    (x ≠ VF → (t.reg x).toNat = ((s.reg x).toNat + (s.reg y).toNat) % 256) ∧
    s.KeepsBut { regs := [x, VF] } t

/-- 8XY5 and 8XY7 (42_alu.md R158, R160): VX is the absolute value of the difference, also where X is F; where X is not F, VF is 1 exactly
when the difference is not negative. -/
def Obligations.SubtractStoresAbsoluteDifference : Prop :=
  ∀ (x y : Nibble) (s : State),
    (∃ t, exec (.subReg x y) s = .next t ∧ t.CompletesAt (s.pc + 2) false ∧
      (t.reg x).toNat = (if (s.reg y).toNat ≤ (s.reg x).toNat then (s.reg x).toNat - (s.reg y).toNat
        else (s.reg y).toNat - (s.reg x).toNat) ∧
      (x ≠ VF → t.reg VF = if (s.reg y).toNat ≤ (s.reg x).toNat then 1 else 0) ∧
      s.KeepsBut { regs := [x, VF] } t) ∧
    (∃ t, exec (.subnReg x y) s = .next t ∧ t.CompletesAt (s.pc + 2) false ∧
      (t.reg x).toNat = (if (s.reg x).toNat ≤ (s.reg y).toNat then (s.reg y).toNat - (s.reg x).toNat
        else (s.reg x).toNat - (s.reg y).toNat) ∧
      (x ≠ VF → t.reg VF = if (s.reg x).toNat ≤ (s.reg y).toNat then 1 else 0) ∧
      s.KeepsBut { regs := [x, VF] } t)

/-- 8XY6 (42_alu.md R159): where X is not F, VX is halved and VF is the bit shifted out; where X is F, VF ends 0; VY is neither read nor
written: the result is the same for every Y. -/
def Obligations.ShiftRightDropsBitZero : Prop :=
  ∀ (x y : Nibble) (s : State), ∃ t, exec (.shr x y) s = .next t ∧ t.CompletesAt (s.pc + 2) false ∧
    (x ≠ VF → (t.reg x).toNat = (s.reg x).toNat / 2 ∧ t.reg VF = if (s.reg x).toNat % 2 = 1 then 1 else 0) ∧
    (x = VF → t.reg VF = 0) ∧
    s.KeepsBut { regs := [x, VF] } t ∧
    ∀ y', exec (.shr x y') s = .next t

/-- 8XYE (42_alu.md R161): VF is bit 15 of the cell and not bit 7; VX is doubled modulo 256 or 65536 by `SHL_MASK8`, for both values of the
parameter; where X is F, VF ends as twice that bit; the result is the same for every Y. -/
def Obligations.ShiftLeftTakesBitFifteen : Prop :=
  ∀ (x y : Nibble) (s : State), ∃ t, exec (.shl x y) s = .next t ∧ t.CompletesAt (s.pc + 2) false ∧
    (x ≠ VF →
      (t.reg x).toNat = (2 * (s.reg x).toNat) % (if s.cfg.shlMask8 = true then 256 else 65536) ∧
      t.reg VF = if 0x8000 ≤ (s.reg x).toNat then 1 else 0) ∧
    (x = VF → t.reg VF = if 0x8000 ≤ (s.reg VF).toNat then 2 else 0) ∧
    s.KeepsBut { regs := [x, VF] } t ∧
    ∀ y', exec (.shl x y') s = .next t

/-- VF as a named operand: every cell of the table of 42_alu.md R164. -/
def Obligations.FlagRegisterAsOperand : Prop :=
  ∀ (r : Nibble) (s : State), r ≠ VF →
    (∃ t, exec (.addReg VF r) s = .next t ∧ t.reg VF = if (s.reg VF).toNat + (s.reg r).toNat ≥ 256 then 1 else 0) ∧
    (∃ t, exec (.addReg r VF) s = .next t ∧ (t.reg r).toNat = ((s.reg r).toNat + (s.reg VF).toNat) % 256 ∧
      t.reg VF = if (s.reg r).toNat + (s.reg VF).toNat ≥ 256 then 1 else 0) ∧
    (∃ t, exec (.addReg VF VF) s = .next t ∧ t.reg VF = if 2 * (s.reg VF).toNat ≥ 256 then 1 else 0) ∧
    (∃ t, exec (.subReg VF r) s = .next t ∧ ((t.reg VF).toNat : Int) = |((s.reg VF).toNat : Int) - (s.reg r).toNat|) ∧
    (∃ t, exec (.subReg r VF) s = .next t ∧ ((t.reg r).toNat : Int) = |((s.reg r).toNat : Int) - (s.reg VF).toNat| ∧
      t.reg VF = if ((s.reg r).toNat : Int) - (s.reg VF).toNat ≥ 0 then 1 else 0) ∧
    (∃ t, exec (.subReg VF VF) s = .next t ∧ t.reg VF = 0) ∧
    (∃ t, exec (.subnReg VF r) s = .next t ∧ ((t.reg VF).toNat : Int) = |((s.reg r).toNat : Int) - (s.reg VF).toNat|) ∧
    (∃ t, exec (.subnReg r VF) s = .next t ∧ ((t.reg r).toNat : Int) = |((s.reg VF).toNat : Int) - (s.reg r).toNat| ∧
      t.reg VF = if ((s.reg VF).toNat : Int) - (s.reg r).toNat ≥ 0 then 1 else 0) ∧
    (∃ t, exec (.subnReg VF VF) s = .next t ∧ t.reg VF = 0) ∧
    (∀ y, ∃ t, exec (.shr VF y) s = .next t ∧ t.reg VF = 0) ∧
    (∃ t, exec (.shr r VF) s = .next t ∧ exec (.shr r r) s = .next t) ∧
    (∀ y, ∃ t, exec (.shl VF y) s = .next t ∧ (t.reg VF).toNat = 2 * ((s.reg VF).toNat / 0x8000)) ∧
    (∃ t, exec (.shl r VF) s = .next t ∧ exec (.shl r r) s = .next t) ∧
    (∃ t, exec (.addI VF) s = .next t ∧ t.I.toNat = (s.I.toNat + (s.reg VF).toNat) % 0x1000 ∧
      t.reg VF = if s.I.toNat + (s.reg VF).toNat > 0xFFF then 1 else 0)

/-- CXNN (42_alu.md R162): VX is the random byte of the step AND NN; nothing else changes; and every byte r with r AND (NOT NN) = 0 is the
result for some random byte (here: of some turn of the host, which the model holds in `script`, log 3). -/
def Obligations.RandomIsMaskedAndFree : Prop :=
  ∀ (x : Nibble) (nn : Byte) (s : State),
    (∃ t, exec (.rnd x nn) s = .next t ∧ t.CompletesAt (s.pc + 2) false ∧
      (t.reg x).toNat = (s.input.rnd &&& nn).toNat ∧ s.KeepsBut { regs := [x] } t) ∧
    (∀ r : Byte, r &&& ~~~nn = 0#8 →
      ∃ turn t, exec (.rnd x nn) { s with script := [turn] } = .next t ∧ (t.reg x).toNat = r.toNat)

/-! ### Address register and memory -/

/-- ANNN, FX29, FX1E (43_index_memory.md R171 to R173): I becomes NNN, V[X] × 5 masked to 12 bits, I + V[X] masked to 12 bits; FX1E writes VF
on every execution, 1 exactly when the sum exceeds 0xFFF. -/
def Obligations.IndexRegisterWrites : Prop :=
  ∀ (nnn : Addr) (x : Nibble) (s : State),
    (∃ t, exec (.ldI nnn) s = .next t ∧ t.CompletesAt (s.pc + 2) false ∧ t.I.toNat = nnn.toNat ∧
      s.KeepsBut { index := true } t) ∧
    (∃ t, exec (.ldF x) s = .next t ∧ t.CompletesAt (s.pc + 2) false ∧ t.I.toNat = ((s.reg x).toNat * 5) % 0x1000 ∧
      s.KeepsBut { index := true } t) ∧
    (∃ t, exec (.addI x) s = .next t ∧ t.CompletesAt (s.pc + 2) false ∧
      t.I.toNat = (s.I.toNat + (s.reg x).toNat) % 0x1000 ∧
      t.reg VF = (if s.I.toNat + (s.reg x).toNat > 0xFFF then 1 else 0) ∧
      s.KeepsBut { index := true, regs := [VF] } t)

/-- The glyph address law (20_memory.md R64): after FX29 with VX = d, I is 5 × d; the five bytes there are the glyph of d as long as the font
is as reset left it; and it is, under the policies fault and ignore, in every state of the invariant `StepKeepsReachableForm` keeps. -/
def Obligations.GlyphAddressLaw : Prop :=
  ∀ (x : Nibble) (d : Nat) (hd : d < 16) (s : State), (s.reg x).toNat = d →
    (∃ t, exec (.ldF x) s = .next t ∧ t.I.toNat = 5 * d ∧
      ((∀ (a : Nat) (h : a < 80), s.load a = s.cfg.font[a]) →
        ∀ (j : Nat) (hj : j < 5), t.load (t.I.toNat + j) = s.cfg.font[5 * d + j])) ∧
    (s.lowOk → s.cfg.lowWritePolicy ≠ .allow → ∀ (a : Nat) (h : a < 80), s.load a = s.cfg.font[a])

/-- FX33 (43_index_memory.md R174): where the three addresses are in memory and the policy does not fault, the digits go to I, I + 1, I + 2
(under the policy ignore, those below 512 are dropped), and every other byte, I and every register stay; where I is above 4093 (and at
most 0xFFF) AddressOutOfRange(4096) is raised, where I is below 512 under the policy fault StoreToProtected(I), with no other effect. -/
def Obligations.BcdStoresThreeDigits : Prop :=
  ∀ (x : Nibble) (s : State),
    (s.I.toNat + 2 ≤ 4095 → (512 ≤ s.I.toNat ∨ s.cfg.lowWritePolicy ≠ .fault) →
      ∃ t, exec (.ldB x) s = .next t ∧ t.CompletesAt (s.pc + 2) false ∧
        (∀ j : Nat, j < 3 → t.load (s.I.toNat + j) =
          if 512 ≤ s.I.toNat + j ∨ s.cfg.lowWritePolicy = .allow then
            (if j = 0 then BitVec.ofNat 8 ((s.reg x).toNat / 100)
             else if j = 1 then BitVec.ofNat 8 ((s.reg x).toNat / 10 % 10)
             else BitVec.ofNat 8 ((s.reg x).toNat % 10))
          else s.load (s.I.toNat + j)) ∧
        s.KeepsBut { bytes := [s.I.toNat, s.I.toNat + 1, s.I.toNat + 2] } t) ∧
    (4095 < s.I.toNat + 2 → s.indexOk → ∃ t, exec (.ldB x) s = .next t ∧ s.FaultsTo t .addressOutOfRange 4096) ∧
    (s.I.toNat < 512 → s.cfg.lowWritePolicy = .fault →
      ∃ t, exec (.ldB x) s = .next t ∧ s.FaultsTo t .storeToProtected s.I.toNat)

/-- FX55 (43_index_memory.md R175): where the addresses are in memory and the policy does not fault, the low byte of V[k] goes to I + k for
k = 0 to X (under the policy ignore, those below 512 are dropped), and every other byte, I and every register stay; where I + X is above
4095 (and I at most 0xFFF) AddressOutOfRange(4096) is raised, where I is below 512 under the policy fault StoreToProtected(I), with no
other effect. -/
def Obligations.BulkStoreWritesLowBytes : Prop :=
  ∀ (x : Nibble) (s : State),
    (s.I.toNat + x.toNat ≤ 4095 → (512 ≤ s.I.toNat ∨ s.cfg.lowWritePolicy ≠ .fault) →
      ∃ t, exec (.storeRegs x) s = .next t ∧ t.CompletesAt (s.pc + 2) false ∧
        (∀ k : Nibble, k.toNat ≤ x.toNat → t.load (s.I.toNat + k.toNat) =
          if 512 ≤ s.I.toNat + k.toNat ∨ s.cfg.lowWritePolicy = .allow then BitVec.ofNat 8 (s.reg k).toNat
          else s.load (s.I.toNat + k.toNat)) ∧
        s.KeepsBut { bytes := (List.range (x.toNat + 1)).map (s.I.toNat + ·) } t) ∧
    (4095 < s.I.toNat + x.toNat → s.indexOk →
      ∃ t, exec (.storeRegs x) s = .next t ∧ s.FaultsTo t .addressOutOfRange 4096) ∧
    (s.I.toNat < 512 → s.cfg.lowWritePolicy = .fault →
      ∃ t, exec (.storeRegs x) s = .next t ∧ s.FaultsTo t .storeToProtected s.I.toNat)

/-- FX65 (43_index_memory.md R176): where the addresses are in memory, V[k] becomes the byte at I + k for k = 0 to X, and the registers above
VX, I and memory stay; where I + X is above 4095 (and I at most 0xFFF) AddressOutOfRange(4096) is raised, with no other effect. -/
def Obligations.BulkLoadReadsBytes : Prop :=
  ∀ (x : Nibble) (s : State),
    (s.I.toNat + x.toNat ≤ 4095 →
      ∃ t, exec (.loadRegs x) s = .next t ∧ t.CompletesAt (s.pc + 2) false ∧
        (∀ k : Nibble, k.toNat ≤ x.toNat → (t.reg k).toNat = (s.load (s.I.toNat + k.toNat)).toNat) ∧
        (∀ k : Nibble, x.toNat < k.toNat → t.reg k = s.reg k) ∧
        s.KeepsBut { regs := regsTo x } t) ∧
    (4095 < s.I.toNat + x.toNat → s.indexOk →
      ∃ t, exec (.loadRegs x) s = .next t ∧ s.FaultsTo t .addressOutOfRange 4096)

/-- The round trip (43_index_memory.md R177): after FX55 of V0 to VX at writable addresses, FX65 with the same I and that memory, whatever the
registers hold by then, gives register k ≤ X back exactly when it was at most 255 (a cell above 255 comes back as its low byte), and
leaves I. The premise that the addresses are writable is not R177's: it is the model's inference (DEDUCED, log 18) from 20_memory.md R69,
since under the policy ignore a store below 512 completes and its byte is dropped. -/
def Obligations.StoreThenLoadRestoresRegisters : Prop :=
  ∀ (x : Nibble) (s t u : State), s.I.toNat + x.toNat ≤ 4095 →
    (512 ≤ s.I.toNat ∨ s.cfg.lowWritePolicy = .allow) →
    exec (.storeRegs x) s = .next t → u.mem = t.mem → u.cfg = t.cfg → u.I = t.I →
    ∃ v, exec (.loadRegs x) u = .next v ∧ v.I = s.I ∧
      ∀ k : Nibble, k.toNat ≤ x.toNat →
        (v.reg k).toNat = (s.reg k).toNat % 256 ∧ (v.reg k = s.reg k ↔ (s.reg k).toNat ≤ 255)

/-- Self-modifying code (20_memory.md R76): FX55 and FX33 are seen by every later fetch. In every state that still has the memory they left
(the very next one among them) and whose pc can be fetched from, the fetch reads the bytes stored where it meets the store, under every
policy that lets the instruction complete, and the bytes of before everywhere else: also where only one of its two bytes was stored. -/
def Obligations.NextFetchSeesBulkStore : Prop :=
  ∀ (x : Nibble) (s : State), (512 ≤ s.I.toNat ∨ s.cfg.lowWritePolicy ≠ .fault) →
    (s.I.toNat + x.toNat ≤ 4095 → ∃ t, exec (.storeRegs x) s = .next t ∧
      ∀ u : State, u.mem = t.mem → u.cfg = t.cfg → u.pc.toNat ≤ 4094 →
        u.fetch = some (s.byteAfterBulkStore x u.pc.toNat ++ s.byteAfterBulkStore x (u.pc.toNat + 1))) ∧
    (s.I.toNat + 2 ≤ 4095 → ∃ t, exec (.ldB x) s = .next t ∧
      ∀ u : State, u.mem = t.mem → u.cfg = t.cfg → u.pc.toNat ≤ 4094 →
        u.fetch = some (s.byteAfterBcdStore x u.pc.toNat ++ s.byteAfterBcdStore x (u.pc.toNat + 1)))

/-! ### Timers and keys -/

/-- FX07, FX15, FX18 (44_timers_keys.md R181, R183, R184): VX becomes dt; dt and st become the low byte of VX; `sound_on` follows st at
once; nothing else changes. -/
def Obligations.TimerInstructions : Prop :=
  ∀ (x : Nibble) (s : State),
    (∃ t, exec (.ldVxDt x) s = .next t ∧ t.CompletesAt (s.pc + 2) false ∧ (t.reg x).toNat = s.dt.toNat ∧
      s.KeepsBut { regs := [x] } t) ∧
    (∃ t, exec (.ldDtVx x) s = .next t ∧ t.CompletesAt (s.pc + 2) false ∧ t.dt.toNat = (s.reg x).toNat % 256 ∧
      s.KeepsBut { delay := true } t) ∧
    (∃ t, exec (.ldStVx x) s = .next t ∧ t.CompletesAt (s.pc + 2) false ∧ t.st.toNat = (s.reg x).toNat % 256 ∧
      (t.soundOn = true ↔ (s.reg x).toNat % 256 ≠ 0) ∧ s.KeepsBut { sound := true } t)

/-- FX0A (44_timers_keys.md R182): with a key supplied VX becomes its index and pc advances by 2; with none pc stays and nothing but the
outputs changes. -/
def Obligations.KeyWaitPollsCurrentKey : Prop :=
  ∀ (x : Nibble) (s : State),
    (∀ k, s.input.key = some k → ∃ t, exec (.ldVxK x) s = .next t ∧ t.CompletesAt (s.pc + 2) false ∧
      (t.reg x).toNat = k.toNat ∧ s.KeepsBut { regs := [x] } t) ∧
    (s.input.key = none → ∃ t, exec (.ldVxK x) s = .next t ∧ t.CompletesAt s.pc false ∧ s.KeepsBut {} t)

/-! ### Clear and draw -/

/-- 00E0 (45_draw.md R191): every pixel goes off, redraw is requested, nothing else changes. -/
def Obligations.ClearTurnsEveryPixelOff : Prop :=
  ∀ s : State, ∃ t, exec .cls s = .next t ∧ t.CompletesAt (s.pc + 2) true ∧ (∀ k, k < 2048 → pixel t.fb k = false) ∧
    s.KeepsBut { pixels := true } t

/-- DXYN in closed form (45_draw.md R193 to R200, R204, R205): where the drawn bytes are in memory, every cell under the clipped sprite gets the
exclusive or with its sprite bit, every other cell stays, VF is 1 exactly when a drawn sprite bit 1 met a pixel that was 1, and nothing
else changes; a coordinate register that is VF reads 0. -/
def Obligations.DrawInClosedForm : Prop :=
  ∀ (x y n : Nibble) (s : State), s.spriteFits y n →
    ∃ t, exec (.drw x y n) s = .next t ∧ t.CompletesAt (s.pc + 2) true ∧
      (∀ r c, r < s.spriteRows y n → c < s.spriteCols x →
        pixel t.fb (s.spriteCell x y r c) = Bool.xor (pixel s.fb (s.spriteCell x y r c)) (s.spriteAt r c)) ∧
      (∀ k, (∀ r c, r < s.spriteRows y n → c < s.spriteCols x → k ≠ s.spriteCell x y r c) →
        pixel t.fb k = pixel s.fb k) ∧
      (t.reg VF = 0 ∨ t.reg VF = 1) ∧
      (t.reg VF = 1 ↔ ∃ r c, r < s.spriteRows y n ∧ c < s.spriteCols x ∧ s.spriteAt r c = true ∧
        pixel s.fb (s.spriteCell x y r c) = true) ∧
      s.KeepsBut { regs := [VF], pixels := true } t

/-- The faults of DXYN (45_draw.md R202): AddressOutOfRange(4096) exactly when a row is drawn and the last drawn row's byte is beyond memory,
before anything is written; for a state with I at most 0xFFF. -/
def Obligations.DrawFaultsOnDrawnRowsOnly : Prop :=
  ∀ (x y n : Nibble) (s : State), s.indexOk → ∃ t, exec (.drw x y n) s = .next t ∧
    (1 ≤ s.spriteRows y n ∧ s.I.toNat + s.spriteRows y n - 1 > 4095 → s.FaultsTo t .addressOutOfRange 4096) ∧
    (¬ (1 ≤ s.spriteRows y n ∧ s.I.toNat + s.spriteRows y n - 1 > 4095) → t.status = s.status ∧ t.redraw = true)

/-- DXY0 (45_draw.md R203): VF becomes 0, no pixel changes, redraw is requested, pc advances, whatever I is. -/
def Obligations.DrawOfNoRows : Prop :=
  ∀ (x y : Nibble) (s : State), ∃ t, exec (.drw x y 0x0#4) s = .next t ∧ t.CompletesAt (s.pc + 2) true ∧
    t.reg VF = 0 ∧ s.KeepsBut { regs := [VF] } t

/-- Drawing the same sprite twice restores the framebuffer, and the second time VF is 1 exactly when the clipped sprite has a 1 bit that the
first left on (45_draw.md R206 (b)). -/
def Obligations.DrawTwiceRestores : Prop :=
  ∀ (x y n : Nibble) (s t u : State), x ≠ VF → y ≠ VF → s.spriteFits y n →
    exec (.drw x y n) s = .next t → exec (.drw x y n) t = .next u →
    u.fb = s.fb ∧
    (u.reg VF = 1 ↔ ∃ r c, r < s.spriteRows y n ∧ c < s.spriteCols x ∧ s.spriteAt r c = true ∧
      pixel t.fb (s.spriteCell x y r c) = true)

/-- On a cleared screen a draw that does not fault gives VF = 0 and shows the clipped sprite (45_draw.md R191, R206 (a)). -/
def Obligations.DrawOnClearedScreen : Prop :=
  ∀ (x y n : Nibble) (s t u : State), exec .cls s = .next t → u.fb = t.fb → u.spriteFits y n →
    ∃ v, exec (.drw x y n) u = .next v ∧ v.reg VF = 0 ∧
      ∀ k, (pixel v.fb k = true ↔ ∃ r c, r < u.spriteRows y n ∧ c < u.spriteCols x ∧ k = u.spriteCell x y r c ∧
        u.spriteAt r c = true)

/-! ### Unimplemented patterns, reset -/

/-- The unimplemented patterns (40_control_flow.md R129): each raises UnimplementedOpcode with its word as detail and has no other effect; and
every word of family 0 other than 00E0, 00EE and 00FD, and every FX75 and FX85, decodes to one of them. -/
def Obligations.UnimplementedPatternsFault : Prop :=
  (∀ s : State,
    (∀ n, ∃ t, exec (.unimpl00CN n) s = .next t ∧ s.FaultsTo t .unimplementedOpcode (0x00C0 + n.toNat)) ∧
    (∃ t, exec .unimpl00FB s = .next t ∧ s.FaultsTo t .unimplementedOpcode 0x00FB) ∧
    (∃ t, exec .unimpl00FC s = .next t ∧ s.FaultsTo t .unimplementedOpcode 0x00FC) ∧
    (∃ t, exec .unimpl00FE s = .next t ∧ s.FaultsTo t .unimplementedOpcode 0x00FE) ∧
    (∃ t, exec .unimpl00FF s = .next t ∧ s.FaultsTo t .unimplementedOpcode 0x00FF) ∧
    (∀ nnn, ∃ t, exec (.unimpl0NNN nnn) s = .next t ∧ s.FaultsTo t .unimplementedOpcode nnn.toNat) ∧
    (∀ x, ∃ t, exec (.unimplFX75 x) s = .next t ∧ s.FaultsTo t .unimplementedOpcode (0xF075 + 0x100 * x.toNat)) ∧
    (∀ x, ∃ t, exec (.unimplFX85 x) s = .next t ∧ s.FaultsTo t .unimplementedOpcode (0xF085 + 0x100 * x.toNat))) ∧
  (∀ op : Word,
    (nibble0 op = 0x0#4 ∧ op ≠ 0x00E0#16 ∧ op ≠ 0x00EE#16 ∧ op ≠ 0x00FD#16) ∨
      (nibble0 op = 0xF#4 ∧ (fieldNN op = 0x75#8 ∨ fieldNN op = 0x85#8)) →
    ∃ i, decodeWord op = some i ∧ ∀ s : State, ∃ t, exec i s = .next t ∧ s.FaultsTo t .unimplementedOpcode op.toNat)

/-- The state after a successful reset (10_state.md R53): the font, zeros, the program image from 512 and zeros after it; every other element
zero, pc 512, status Running. -/
def Obligations.ResetValues : Prop :=
  ∀ (c : Config) (program : List Byte), program.length ≤ 3584 →
    (∀ (a : Nat) (h : a < 80), (State.resetWith c program).load a = c.font[a]) ∧
    (∀ a, 80 ≤ a → a < 512 → (State.resetWith c program).load a = 0#8) ∧
    (∀ (j : Nat) (h : j < program.length), (State.resetWith c program).load (512 + j) = program[j]) ∧
    (∀ a, 512 + program.length ≤ a → a ≤ 4095 → (State.resetWith c program).load a = 0#8) ∧
    (∀ r, (State.resetWith c program).reg r = 0#16) ∧ (State.resetWith c program).I = 0#16 ∧
    (State.resetWith c program).pc = 512#16 ∧ (State.resetWith c program).sp.val = 0 ∧
    (∀ k : Fin 48, (State.resetWith c program).stack[k] = 0#16) ∧
    (State.resetWith c program).dt = 0#8 ∧ (State.resetWith c program).st = 0#8 ∧
    (∀ k, k < 2048 → pixel (State.resetWith c program).fb k = false) ∧
    (∀ k : Nibble, (State.resetWith c program).keyDown k = false) ∧ (State.resetWith c program).status = .running

/-- A program image above 3584 bytes (70_reset_and_hazards.md R263): the core is Faulted(LoadError, 0x0200, the length saturated at 0xFFFFF), no
byte of the image is copied, every other element has its reset value, and no number of step requests executes anything. -/
def Obligations.LoadFailureFaults : Prop :=
  ∀ (c : Config) (program : List Byte), 3584 < program.length →
    (State.resetWith c program).status =
      .faulted .loadError 0x0200#16 (BitVec.ofNat 20 (if program.length ≤ 0xFFFFF then program.length else 0xFFFFF)) ∧
    (State.resetWith c program).faultReport =
      some (0x1#4, 0x0200#16, BitVec.ofNat 20 (if program.length ≤ 0xFFFFF then program.length else 0xFFFFF)) ∧
    (∀ (a : Nat) (h : a < 80), (State.resetWith c program).load a = c.font[a]) ∧
    (∀ a, 80 ≤ a → a ≤ 4095 → (State.resetWith c program).load a = 0#8) ∧
    (∀ r, (State.resetWith c program).reg r = 0#16) ∧ (State.resetWith c program).I = 0#16 ∧
    (State.resetWith c program).pc = 512#16 ∧ (State.resetWith c program).sp.val = 0 ∧
    (∀ k : Fin 48, (State.resetWith c program).stack[k] = 0#16) ∧
    (State.resetWith c program).dt = 0#8 ∧ (State.resetWith c program).st = 0#8 ∧
    (∀ k, k < 2048 → pixel (State.resetWith c program).fb k = false) ∧
    (∀ k : Nibble, (State.resetWith c program).keyDown k = false) ∧
    ∀ k : Nat, ∃ t, core.run k (State.resetWith c program) = .next t ∧
      t.status = (State.resetWith c program).status ∧ t.pc = 512#16 ∧ t.V = (State.resetWith c program).V ∧ t.I = 0#16 ∧
      t.mem = (State.resetWith c program).mem ∧ t.stack = (State.resetWith c program).stack ∧ t.sp.val = 0 ∧
      t.fb = (State.resetWith c program).fb

/-- Reset asserted again (70_reset_and_hazards.md R260, 60_exceptions.md R234): from every state, a halted or faulted one included, it has the
effect it has the first time, with the new image; the parameters and the host's turns go on (log 8). -/
def Obligations.ResetAgainHasTheSameEffect : Prop :=
  ∀ (s : State) (program : List Byte), (s.assertReset program).Inv ∧
    s.assertReset program = { State.resetWith s.cfg program with script := s.script, turn := s.turn } ∧
    (program.length ≤ 3584 → (s.assertReset program).status = .running ∧ (s.assertReset program).pc = 512#16)

/-! ### Ports -/

/-- The read-only views (10_state.md R52): `fault_valid` is 1 exactly when the status is Faulted, and the report then carries the code of the
table of 60_exceptions.md R221, `fpc` and `detail`; `fb_read(k)` is the pixel of column x and row y for k = y × 64 + x; `dt_out`, `st_out` are
the timers; `sound_on` is st > 0. -/
def Obligations.PortsShowTheState : Prop :=
  ∀ s : State,
    (s.faultValid = true ↔ ∃ c p d, s.status = .faulted c p d) ∧
    (∀ c p d, s.status = .faulted c p d → ∃ code, (c, code) ∈ faultCodes ∧ s.faultReport = some (code, p, d)) ∧
    (s.faultValid = false → s.faultReport = none) ∧
    (∀ x y, x < 64 → y < 32 → s.fbRead (y * 64 + x) = s.fb.getLsbD (y * 64 + x)) ∧
    s.dtOut = s.dt ∧ s.stOut = s.st ∧ (s.soundOn = true ↔ 0 < s.st.toNat)
end

