-- ==== Sys2Proof/Laws/State.lean ====
section
/-! SUPPORT. Every field of the state after every update of it: true by unfolding the update once, so that no later proof unfolds
a record. -/

namespace Sys2Proof.Machine

variable (s : State)

/-! ### `setV` -/

@[simp] theorem State.setV_mem (r : Nibble) (w : Word) : (s.setV r w).mem = s.mem := rfl
@[simp] theorem State.setV_V (r : Nibble) (w : Word) : (s.setV r w).V = s.V.set r.toNat w r.isLt := rfl
@[simp] theorem State.setV_I (r : Nibble) (w : Word) : (s.setV r w).I = s.I := rfl
@[simp] theorem State.setV_pc (r : Nibble) (w : Word) : (s.setV r w).pc = s.pc := rfl
@[simp] theorem State.setV_stack (r : Nibble) (w : Word) : (s.setV r w).stack = s.stack := rfl
@[simp] theorem State.setV_sp (r : Nibble) (w : Word) : (s.setV r w).sp = s.sp := rfl
@[simp] theorem State.setV_dt (r : Nibble) (w : Word) : (s.setV r w).dt = s.dt := rfl
@[simp] theorem State.setV_st (r : Nibble) (w : Word) : (s.setV r w).st = s.st := rfl
@[simp] theorem State.setV_fb (r : Nibble) (w : Word) : (s.setV r w).fb = s.fb := rfl
@[simp] theorem State.setV_keys (r : Nibble) (w : Word) : (s.setV r w).keys = s.keys := rfl
@[simp] theorem State.setV_status (r : Nibble) (w : Word) : (s.setV r w).status = s.status := rfl
@[simp] theorem State.setV_cont (r : Nibble) (w : Word) : (s.setV r w).cont = s.cont := rfl
@[simp] theorem State.setV_redraw (r : Nibble) (w : Word) : (s.setV r w).redraw = s.redraw := rfl
@[simp] theorem State.setV_cfg (r : Nibble) (w : Word) : (s.setV r w).cfg = s.cfg := rfl
@[simp] theorem State.setV_script (r : Nibble) (w : Word) : (s.setV r w).script = s.script := rfl
@[simp] theorem State.setV_turn (r : Nibble) (w : Word) : (s.setV r w).turn = s.turn := rfl

/-! ### `setFlag` -/

@[simp] theorem State.setFlag_mem (b : Bool) : (s.setFlag b).mem = s.mem := rfl
@[simp] theorem State.setFlag_V (b : Bool) : (s.setFlag b).V = s.V.set VF.toNat (flagWord b) VF.isLt := rfl
@[simp] theorem State.setFlag_I (b : Bool) : (s.setFlag b).I = s.I := rfl
@[simp] theorem State.setFlag_pc (b : Bool) : (s.setFlag b).pc = s.pc := rfl
@[simp] theorem State.setFlag_stack (b : Bool) : (s.setFlag b).stack = s.stack := rfl
@[simp] theorem State.setFlag_sp (b : Bool) : (s.setFlag b).sp = s.sp := rfl
@[simp] theorem State.setFlag_dt (b : Bool) : (s.setFlag b).dt = s.dt := rfl
@[simp] theorem State.setFlag_st (b : Bool) : (s.setFlag b).st = s.st := rfl
@[simp] theorem State.setFlag_fb (b : Bool) : (s.setFlag b).fb = s.fb := rfl
@[simp] theorem State.setFlag_keys (b : Bool) : (s.setFlag b).keys = s.keys := rfl
@[simp] theorem State.setFlag_status (b : Bool) : (s.setFlag b).status = s.status := rfl
@[simp] theorem State.setFlag_cont (b : Bool) : (s.setFlag b).cont = s.cont := rfl
@[simp] theorem State.setFlag_redraw (b : Bool) : (s.setFlag b).redraw = s.redraw := rfl
@[simp] theorem State.setFlag_cfg (b : Bool) : (s.setFlag b).cfg = s.cfg := rfl
@[simp] theorem State.setFlag_script (b : Bool) : (s.setFlag b).script = s.script := rfl
@[simp] theorem State.setFlag_turn (b : Bool) : (s.setFlag b).turn = s.turn := rfl

/-! ### `absDiff` -/

@[simp] theorem State.absDiff_mem (x : Nibble) (a b : Word) : (s.absDiff x a b).mem = s.mem := rfl
@[simp] theorem State.absDiff_I (x : Nibble) (a b : Word) : (s.absDiff x a b).I = s.I := rfl
@[simp] theorem State.absDiff_pc (x : Nibble) (a b : Word) : (s.absDiff x a b).pc = s.pc := rfl
@[simp] theorem State.absDiff_stack (x : Nibble) (a b : Word) : (s.absDiff x a b).stack = s.stack := rfl
@[simp] theorem State.absDiff_sp (x : Nibble) (a b : Word) : (s.absDiff x a b).sp = s.sp := rfl
@[simp] theorem State.absDiff_dt (x : Nibble) (a b : Word) : (s.absDiff x a b).dt = s.dt := rfl
@[simp] theorem State.absDiff_st (x : Nibble) (a b : Word) : (s.absDiff x a b).st = s.st := rfl
@[simp] theorem State.absDiff_fb (x : Nibble) (a b : Word) : (s.absDiff x a b).fb = s.fb := rfl
@[simp] theorem State.absDiff_keys (x : Nibble) (a b : Word) : (s.absDiff x a b).keys = s.keys := rfl
@[simp] theorem State.absDiff_status (x : Nibble) (a b : Word) : (s.absDiff x a b).status = s.status := rfl
@[simp] theorem State.absDiff_cont (x : Nibble) (a b : Word) : (s.absDiff x a b).cont = s.cont := rfl
@[simp] theorem State.absDiff_redraw (x : Nibble) (a b : Word) : (s.absDiff x a b).redraw = s.redraw := rfl
@[simp] theorem State.absDiff_cfg (x : Nibble) (a b : Word) : (s.absDiff x a b).cfg = s.cfg := rfl
@[simp] theorem State.absDiff_script (x : Nibble) (a b : Word) : (s.absDiff x a b).script = s.script := rfl
@[simp] theorem State.absDiff_turn (x : Nibble) (a b : Word) : (s.absDiff x a b).turn = s.turn := rfl

/-! ### `iWrite` -/

@[simp] theorem State.iWrite_mem (v : Nat) : (s.iWrite v).mem = s.mem := rfl
@[simp] theorem State.iWrite_V (v : Nat) : (s.iWrite v).V = s.V := rfl
@[simp] theorem State.iWrite_I (v : Nat) : (s.iWrite v).I = BitVec.ofNat 16 (v % 4096) := rfl
@[simp] theorem State.iWrite_pc (v : Nat) : (s.iWrite v).pc = s.pc := rfl
@[simp] theorem State.iWrite_stack (v : Nat) : (s.iWrite v).stack = s.stack := rfl
@[simp] theorem State.iWrite_sp (v : Nat) : (s.iWrite v).sp = s.sp := rfl
@[simp] theorem State.iWrite_dt (v : Nat) : (s.iWrite v).dt = s.dt := rfl
@[simp] theorem State.iWrite_st (v : Nat) : (s.iWrite v).st = s.st := rfl
@[simp] theorem State.iWrite_fb (v : Nat) : (s.iWrite v).fb = s.fb := rfl
@[simp] theorem State.iWrite_keys (v : Nat) : (s.iWrite v).keys = s.keys := rfl
@[simp] theorem State.iWrite_status (v : Nat) : (s.iWrite v).status = s.status := rfl
@[simp] theorem State.iWrite_cont (v : Nat) : (s.iWrite v).cont = s.cont := rfl
@[simp] theorem State.iWrite_redraw (v : Nat) : (s.iWrite v).redraw = s.redraw := rfl
@[simp] theorem State.iWrite_cfg (v : Nat) : (s.iWrite v).cfg = s.cfg := rfl
@[simp] theorem State.iWrite_script (v : Nat) : (s.iWrite v).script = s.script := rfl
@[simp] theorem State.iWrite_turn (v : Nat) : (s.iWrite v).turn = s.turn := rfl

/-! ### `store` -/

@[simp] theorem State.store_mem (a : Nat) (v : Byte) : (s.store a v).mem = if s.writable a then Memory.write s.cfg s.mem a v else s.mem := rfl
@[simp] theorem State.store_V (a : Nat) (v : Byte) : (s.store a v).V = s.V := rfl
@[simp] theorem State.store_I (a : Nat) (v : Byte) : (s.store a v).I = s.I := rfl
@[simp] theorem State.store_pc (a : Nat) (v : Byte) : (s.store a v).pc = s.pc := rfl
@[simp] theorem State.store_stack (a : Nat) (v : Byte) : (s.store a v).stack = s.stack := rfl
@[simp] theorem State.store_sp (a : Nat) (v : Byte) : (s.store a v).sp = s.sp := rfl
@[simp] theorem State.store_dt (a : Nat) (v : Byte) : (s.store a v).dt = s.dt := rfl
@[simp] theorem State.store_st (a : Nat) (v : Byte) : (s.store a v).st = s.st := rfl
@[simp] theorem State.store_fb (a : Nat) (v : Byte) : (s.store a v).fb = s.fb := rfl
@[simp] theorem State.store_keys (a : Nat) (v : Byte) : (s.store a v).keys = s.keys := rfl
@[simp] theorem State.store_status (a : Nat) (v : Byte) : (s.store a v).status = s.status := rfl
@[simp] theorem State.store_cont (a : Nat) (v : Byte) : (s.store a v).cont = s.cont := rfl
@[simp] theorem State.store_redraw (a : Nat) (v : Byte) : (s.store a v).redraw = s.redraw := rfl
@[simp] theorem State.store_cfg (a : Nat) (v : Byte) : (s.store a v).cfg = s.cfg := rfl
@[simp] theorem State.store_script (a : Nat) (v : Byte) : (s.store a v).script = s.script := rfl
@[simp] theorem State.store_turn (a : Nat) (v : Byte) : (s.store a v).turn = s.turn := rfl

/-! ### `storeBcd` -/

@[simp] theorem State.storeBcd_V (v : Word) : (s.storeBcd v).V = s.V := rfl
@[simp] theorem State.storeBcd_I (v : Word) : (s.storeBcd v).I = s.I := rfl
@[simp] theorem State.storeBcd_pc (v : Word) : (s.storeBcd v).pc = s.pc := rfl
@[simp] theorem State.storeBcd_stack (v : Word) : (s.storeBcd v).stack = s.stack := rfl
@[simp] theorem State.storeBcd_sp (v : Word) : (s.storeBcd v).sp = s.sp := rfl
@[simp] theorem State.storeBcd_dt (v : Word) : (s.storeBcd v).dt = s.dt := rfl
@[simp] theorem State.storeBcd_st (v : Word) : (s.storeBcd v).st = s.st := rfl
@[simp] theorem State.storeBcd_fb (v : Word) : (s.storeBcd v).fb = s.fb := rfl
@[simp] theorem State.storeBcd_keys (v : Word) : (s.storeBcd v).keys = s.keys := rfl
@[simp] theorem State.storeBcd_status (v : Word) : (s.storeBcd v).status = s.status := rfl
@[simp] theorem State.storeBcd_cont (v : Word) : (s.storeBcd v).cont = s.cont := rfl
@[simp] theorem State.storeBcd_redraw (v : Word) : (s.storeBcd v).redraw = s.redraw := rfl
@[simp] theorem State.storeBcd_cfg (v : Word) : (s.storeBcd v).cfg = s.cfg := rfl
@[simp] theorem State.storeBcd_script (v : Word) : (s.storeBcd v).script = s.script := rfl
@[simp] theorem State.storeBcd_turn (v : Word) : (s.storeBcd v).turn = s.turn := rfl

/-! ### `raise` -/

@[simp] theorem State.raise_mem (c : Cause) (d : Nat) : (s.raise c d).mem = s.mem := rfl
@[simp] theorem State.raise_V (c : Cause) (d : Nat) : (s.raise c d).V = s.V := rfl
@[simp] theorem State.raise_I (c : Cause) (d : Nat) : (s.raise c d).I = s.I := rfl
@[simp] theorem State.raise_pc (c : Cause) (d : Nat) : (s.raise c d).pc = s.pc := rfl
@[simp] theorem State.raise_stack (c : Cause) (d : Nat) : (s.raise c d).stack = s.stack := rfl
@[simp] theorem State.raise_sp (c : Cause) (d : Nat) : (s.raise c d).sp = s.sp := rfl
@[simp] theorem State.raise_dt (c : Cause) (d : Nat) : (s.raise c d).dt = s.dt := rfl
@[simp] theorem State.raise_st (c : Cause) (d : Nat) : (s.raise c d).st = s.st := rfl
@[simp] theorem State.raise_fb (c : Cause) (d : Nat) : (s.raise c d).fb = s.fb := rfl
@[simp] theorem State.raise_keys (c : Cause) (d : Nat) : (s.raise c d).keys = s.keys := rfl
@[simp] theorem State.raise_status (c : Cause) (d : Nat) : (s.raise c d).status = .faulted c s.pc (BitVec.ofNat 20 d) := rfl
@[simp] theorem State.raise_cont (c : Cause) (d : Nat) : (s.raise c d).cont = false := rfl
@[simp] theorem State.raise_redraw (c : Cause) (d : Nat) : (s.raise c d).redraw = false := rfl
@[simp] theorem State.raise_cfg (c : Cause) (d : Nat) : (s.raise c d).cfg = s.cfg := rfl
@[simp] theorem State.raise_script (c : Cause) (d : Nat) : (s.raise c d).script = s.script := rfl
@[simp] theorem State.raise_turn (c : Cause) (d : Nat) : (s.raise c d).turn = s.turn := rfl

/-! ### `finish` -/

@[simp] theorem State.finish_mem (p : Word) (b : Bool) : (s.finish p b).mem = s.mem := rfl
@[simp] theorem State.finish_V (p : Word) (b : Bool) : (s.finish p b).V = s.V := rfl
@[simp] theorem State.finish_I (p : Word) (b : Bool) : (s.finish p b).I = s.I := rfl
@[simp] theorem State.finish_pc (p : Word) (b : Bool) : (s.finish p b).pc = p := rfl
@[simp] theorem State.finish_stack (p : Word) (b : Bool) : (s.finish p b).stack = s.stack := rfl
@[simp] theorem State.finish_sp (p : Word) (b : Bool) : (s.finish p b).sp = s.sp := rfl
@[simp] theorem State.finish_dt (p : Word) (b : Bool) : (s.finish p b).dt = s.dt := rfl
@[simp] theorem State.finish_st (p : Word) (b : Bool) : (s.finish p b).st = s.st := rfl
@[simp] theorem State.finish_fb (p : Word) (b : Bool) : (s.finish p b).fb = s.fb := rfl
@[simp] theorem State.finish_keys (p : Word) (b : Bool) : (s.finish p b).keys = s.keys := rfl
@[simp] theorem State.finish_status (p : Word) (b : Bool) : (s.finish p b).status = s.status := rfl
@[simp] theorem State.finish_cont (p : Word) (b : Bool) : (s.finish p b).cont = true := rfl
@[simp] theorem State.finish_redraw (p : Word) (b : Bool) : (s.finish p b).redraw = b := rfl
@[simp] theorem State.finish_cfg (p : Word) (b : Bool) : (s.finish p b).cfg = s.cfg := rfl
@[simp] theorem State.finish_script (p : Word) (b : Bool) : (s.finish p b).script = s.script := rfl
@[simp] theorem State.finish_turn (p : Word) (b : Bool) : (s.finish p b).turn = s.turn := rfl

/-! ### `done` -/

@[simp] theorem State.done_mem : s.done.mem = s.mem := rfl
@[simp] theorem State.done_V : s.done.V = s.V := rfl
@[simp] theorem State.done_I : s.done.I = s.I := rfl
@[simp] theorem State.done_pc : s.done.pc = s.nextPc := rfl
@[simp] theorem State.done_stack : s.done.stack = s.stack := rfl
@[simp] theorem State.done_sp : s.done.sp = s.sp := rfl
@[simp] theorem State.done_dt : s.done.dt = s.dt := rfl
@[simp] theorem State.done_st : s.done.st = s.st := rfl
@[simp] theorem State.done_fb : s.done.fb = s.fb := rfl
@[simp] theorem State.done_keys : s.done.keys = s.keys := rfl
@[simp] theorem State.done_status : s.done.status = s.status := rfl
@[simp] theorem State.done_cont : s.done.cont = true := rfl
@[simp] theorem State.done_redraw : s.done.redraw = false := rfl
@[simp] theorem State.done_cfg : s.done.cfg = s.cfg := rfl
@[simp] theorem State.done_script : s.done.script = s.script := rfl
@[simp] theorem State.done_turn : s.done.turn = s.turn := rfl

/-! ### `skipIf` -/

@[simp] theorem State.skipIf_mem (c : Bool) : (s.skipIf c).mem = s.mem := rfl
@[simp] theorem State.skipIf_V (c : Bool) : (s.skipIf c).V = s.V := rfl
@[simp] theorem State.skipIf_I (c : Bool) : (s.skipIf c).I = s.I := rfl
@[simp] theorem State.skipIf_pc (c : Bool) : (s.skipIf c).pc = if c then s.skipPc else s.nextPc := rfl
@[simp] theorem State.skipIf_stack (c : Bool) : (s.skipIf c).stack = s.stack := rfl
@[simp] theorem State.skipIf_sp (c : Bool) : (s.skipIf c).sp = s.sp := rfl
@[simp] theorem State.skipIf_dt (c : Bool) : (s.skipIf c).dt = s.dt := rfl
@[simp] theorem State.skipIf_st (c : Bool) : (s.skipIf c).st = s.st := rfl
@[simp] theorem State.skipIf_fb (c : Bool) : (s.skipIf c).fb = s.fb := rfl
@[simp] theorem State.skipIf_keys (c : Bool) : (s.skipIf c).keys = s.keys := rfl
@[simp] theorem State.skipIf_status (c : Bool) : (s.skipIf c).status = s.status := rfl
@[simp] theorem State.skipIf_cont (c : Bool) : (s.skipIf c).cont = true := rfl
@[simp] theorem State.skipIf_redraw (c : Bool) : (s.skipIf c).redraw = false := rfl
@[simp] theorem State.skipIf_cfg (c : Bool) : (s.skipIf c).cfg = s.cfg := rfl
@[simp] theorem State.skipIf_script (c : Bool) : (s.skipIf c).script = s.script := rfl
@[simp] theorem State.skipIf_turn (c : Bool) : (s.skipIf c).turn = s.turn := rfl

/-! ### `halt` -/

@[simp] theorem State.halt_mem : s.halt.mem = s.mem := rfl
@[simp] theorem State.halt_V : s.halt.V = s.V := rfl
@[simp] theorem State.halt_I : s.halt.I = s.I := rfl
@[simp] theorem State.halt_pc : s.halt.pc = s.nextPc := rfl
@[simp] theorem State.halt_stack : s.halt.stack = s.stack := rfl
@[simp] theorem State.halt_sp : s.halt.sp = s.sp := rfl
@[simp] theorem State.halt_dt : s.halt.dt = s.dt := rfl
@[simp] theorem State.halt_st : s.halt.st = s.st := rfl
@[simp] theorem State.halt_fb : s.halt.fb = s.fb := rfl
@[simp] theorem State.halt_keys : s.halt.keys = s.keys := rfl
@[simp] theorem State.halt_status : s.halt.status = .halted := rfl
@[simp] theorem State.halt_cont : s.halt.cont = false := rfl
@[simp] theorem State.halt_redraw : s.halt.redraw = false := rfl
@[simp] theorem State.halt_cfg : s.halt.cfg = s.cfg := rfl
@[simp] theorem State.halt_script : s.halt.script = s.script := rfl
@[simp] theorem State.halt_turn : s.halt.turn = s.turn := rfl

/-! ### `idle` -/

@[simp] theorem State.idle_mem : s.idle.mem = s.mem := rfl
@[simp] theorem State.idle_V : s.idle.V = s.V := rfl
@[simp] theorem State.idle_I : s.idle.I = s.I := rfl
@[simp] theorem State.idle_pc : s.idle.pc = s.pc := rfl
@[simp] theorem State.idle_stack : s.idle.stack = s.stack := rfl
@[simp] theorem State.idle_sp : s.idle.sp = s.sp := rfl
@[simp] theorem State.idle_dt : s.idle.dt = s.dt := rfl
@[simp] theorem State.idle_st : s.idle.st = s.st := rfl
@[simp] theorem State.idle_fb : s.idle.fb = s.fb := rfl
@[simp] theorem State.idle_keys : s.idle.keys = s.keys := rfl
@[simp] theorem State.idle_status : s.idle.status = s.status := rfl
@[simp] theorem State.idle_cont : s.idle.cont = false := rfl
@[simp] theorem State.idle_redraw : s.idle.redraw = false := rfl
@[simp] theorem State.idle_cfg : s.idle.cfg = s.cfg := rfl
@[simp] theorem State.idle_script : s.idle.script = s.script := rfl
@[simp] theorem State.idle_turn : s.idle.turn = s.turn := rfl

/-! ### `timerTick` -/

@[simp] theorem State.timerTick_mem : s.timerTick.mem = s.mem := rfl
@[simp] theorem State.timerTick_V : s.timerTick.V = s.V := rfl
@[simp] theorem State.timerTick_I : s.timerTick.I = s.I := rfl
@[simp] theorem State.timerTick_pc : s.timerTick.pc = s.pc := rfl
@[simp] theorem State.timerTick_stack : s.timerTick.stack = s.stack := rfl
@[simp] theorem State.timerTick_sp : s.timerTick.sp = s.sp := rfl
@[simp] theorem State.timerTick_dt : s.timerTick.dt = tickDown s.dt := rfl
@[simp] theorem State.timerTick_st : s.timerTick.st = tickDown s.st := rfl
@[simp] theorem State.timerTick_fb : s.timerTick.fb = s.fb := rfl
@[simp] theorem State.timerTick_keys : s.timerTick.keys = s.keys := rfl
@[simp] theorem State.timerTick_status : s.timerTick.status = s.status := rfl
@[simp] theorem State.timerTick_cont : s.timerTick.cont = s.cont := rfl
@[simp] theorem State.timerTick_redraw : s.timerTick.redraw = s.redraw := rfl
@[simp] theorem State.timerTick_cfg : s.timerTick.cfg = s.cfg := rfl
@[simp] theorem State.timerTick_script : s.timerTick.script = s.script := rfl
@[simp] theorem State.timerTick_turn : s.timerTick.turn = s.turn := rfl

/-! ### `keyWrite` -/

@[simp] theorem State.keyWrite_mem (k : Nibble) (d : Bool) : (s.keyWrite k d).mem = s.mem := rfl
@[simp] theorem State.keyWrite_V (k : Nibble) (d : Bool) : (s.keyWrite k d).V = s.V := rfl
@[simp] theorem State.keyWrite_I (k : Nibble) (d : Bool) : (s.keyWrite k d).I = s.I := rfl
@[simp] theorem State.keyWrite_pc (k : Nibble) (d : Bool) : (s.keyWrite k d).pc = s.pc := rfl
@[simp] theorem State.keyWrite_stack (k : Nibble) (d : Bool) : (s.keyWrite k d).stack = s.stack := rfl
@[simp] theorem State.keyWrite_sp (k : Nibble) (d : Bool) : (s.keyWrite k d).sp = s.sp := rfl
@[simp] theorem State.keyWrite_dt (k : Nibble) (d : Bool) : (s.keyWrite k d).dt = s.dt := rfl
@[simp] theorem State.keyWrite_st (k : Nibble) (d : Bool) : (s.keyWrite k d).st = s.st := rfl
@[simp] theorem State.keyWrite_fb (k : Nibble) (d : Bool) : (s.keyWrite k d).fb = s.fb := rfl
@[simp] theorem State.keyWrite_keys (k : Nibble) (d : Bool) : (s.keyWrite k d).keys = s.keys.set k.toNat d k.isLt := rfl
@[simp] theorem State.keyWrite_status (k : Nibble) (d : Bool) : (s.keyWrite k d).status = s.status := rfl
@[simp] theorem State.keyWrite_cont (k : Nibble) (d : Bool) : (s.keyWrite k d).cont = s.cont := rfl
@[simp] theorem State.keyWrite_redraw (k : Nibble) (d : Bool) : (s.keyWrite k d).redraw = s.redraw := rfl
@[simp] theorem State.keyWrite_cfg (k : Nibble) (d : Bool) : (s.keyWrite k d).cfg = s.cfg := rfl
@[simp] theorem State.keyWrite_script (k : Nibble) (d : Bool) : (s.keyWrite k d).script = s.script := rfl
@[simp] theorem State.keyWrite_turn (k : Nibble) (d : Bool) : (s.keyWrite k d).turn = s.turn := rfl

/-! ### `hostMoves` -/

@[simp] theorem State.hostMoves_mem : s.hostMoves.mem = s.mem := rfl
@[simp] theorem State.hostMoves_V : s.hostMoves.V = s.V := rfl
@[simp] theorem State.hostMoves_I : s.hostMoves.I = s.I := rfl
@[simp] theorem State.hostMoves_pc : s.hostMoves.pc = s.pc := rfl
@[simp] theorem State.hostMoves_stack : s.hostMoves.stack = s.stack := rfl
@[simp] theorem State.hostMoves_sp : s.hostMoves.sp = s.sp := rfl
@[simp] theorem State.hostMoves_dt : s.hostMoves.dt = (s.hostEvents s.input.events).dt := rfl
@[simp] theorem State.hostMoves_st : s.hostMoves.st = (s.hostEvents s.input.events).st := rfl
@[simp] theorem State.hostMoves_fb : s.hostMoves.fb = s.fb := rfl
@[simp] theorem State.hostMoves_keys : s.hostMoves.keys = (s.hostEvents s.input.events).keys := rfl
@[simp] theorem State.hostMoves_status : s.hostMoves.status = s.status := rfl
@[simp] theorem State.hostMoves_cont : s.hostMoves.cont = s.cont := rfl
@[simp] theorem State.hostMoves_redraw : s.hostMoves.redraw = s.redraw := rfl
@[simp] theorem State.hostMoves_cfg : s.hostMoves.cfg = s.cfg := rfl
@[simp] theorem State.hostMoves_script : s.hostMoves.script = s.script := rfl
@[simp] theorem State.hostMoves_turn : s.hostMoves.turn = s.turn := rfl

/-! ### `endTurn` -/

@[simp] theorem State.endTurn_mem : s.endTurn.mem = s.mem := rfl
@[simp] theorem State.endTurn_V : s.endTurn.V = s.V := rfl
@[simp] theorem State.endTurn_I : s.endTurn.I = s.I := rfl
@[simp] theorem State.endTurn_pc : s.endTurn.pc = s.pc := rfl
@[simp] theorem State.endTurn_stack : s.endTurn.stack = s.stack := rfl
@[simp] theorem State.endTurn_sp : s.endTurn.sp = s.sp := rfl
@[simp] theorem State.endTurn_dt : s.endTurn.dt = s.dt := rfl
@[simp] theorem State.endTurn_st : s.endTurn.st = s.st := rfl
@[simp] theorem State.endTurn_fb : s.endTurn.fb = s.fb := rfl
@[simp] theorem State.endTurn_keys : s.endTurn.keys = s.keys := rfl
@[simp] theorem State.endTurn_status : s.endTurn.status = s.status := rfl
@[simp] theorem State.endTurn_cont : s.endTurn.cont = s.cont := rfl
@[simp] theorem State.endTurn_redraw : s.endTurn.redraw = s.redraw := rfl
@[simp] theorem State.endTurn_cfg : s.endTurn.cfg = s.cfg := rfl
@[simp] theorem State.endTurn_script : s.endTurn.script = s.script.tail := rfl
@[simp] theorem State.endTurn_turn : s.endTurn.turn = s.turn + 1 := rfl

/-! ### `raiseUnimplemented` -/

@[simp] theorem State.raiseUnimplemented_eq (i : Instr) :
    s.raiseUnimplemented i = s.raise .unimplementedOpcode (encode i).toNat := rfl

/-! ### The fault report -/

/-- The code the report gives a cause is the one the table lists for it. -/
theorem Cause.code_mem_faultCodes (c : Cause) : (c, c.code) ∈ faultCodes := by cases c <;> decide

theorem State.faultReport_of_faulted {t : State} {c : Cause} {p : Word} {d : BitVec 20} (h : t.status = .faulted c p d) :
    t.faultReport = some (c.code, p, d) := by
  simp only [State.faultReport, h]

/-! ### What the state reads as through `reg` and `load`, after every update that does not write V or memory -/

@[simp] theorem State.setV_load (q : Nat) (r : Nibble) (w : Word) : (s.setV r w).load q = s.load q := rfl
@[simp] theorem State.setFlag_load (q : Nat) (b : Bool) : (s.setFlag b).load q = s.load q := rfl
@[simp] theorem State.absDiff_load (q : Nat) (x : Nibble) (a b : Word) : (s.absDiff x a b).load q = s.load q := rfl
@[simp] theorem State.iWrite_reg (q : Nibble) (v : Nat) : (s.iWrite v).reg q = s.reg q := rfl
@[simp] theorem State.iWrite_load (q : Nat) (v : Nat) : (s.iWrite v).load q = s.load q := rfl
@[simp] theorem State.store_reg (q : Nibble) (a : Nat) (v : Byte) : (s.store a v).reg q = s.reg q := rfl
@[simp] theorem State.raise_reg (q : Nibble) (c : Cause) (d : Nat) : (s.raise c d).reg q = s.reg q := rfl
@[simp] theorem State.raise_load (q : Nat) (c : Cause) (d : Nat) : (s.raise c d).load q = s.load q := rfl
@[simp] theorem State.finish_reg (q : Nibble) (p : Word) (b : Bool) : (s.finish p b).reg q = s.reg q := rfl
@[simp] theorem State.finish_load (q : Nat) (p : Word) (b : Bool) : (s.finish p b).load q = s.load q := rfl
@[simp] theorem State.done_reg (q : Nibble) : s.done.reg q = s.reg q := rfl
@[simp] theorem State.done_load (q : Nat) : s.done.load q = s.load q := rfl
@[simp] theorem State.skipIf_reg (q : Nibble) (c : Bool) : (s.skipIf c).reg q = s.reg q := rfl
@[simp] theorem State.skipIf_load (q : Nat) (c : Bool) : (s.skipIf c).load q = s.load q := rfl
@[simp] theorem State.halt_reg (q : Nibble) : s.halt.reg q = s.reg q := rfl
@[simp] theorem State.halt_load (q : Nat) : s.halt.load q = s.load q := rfl
@[simp] theorem State.idle_reg (q : Nibble) : s.idle.reg q = s.reg q := rfl
@[simp] theorem State.idle_load (q : Nat) : s.idle.load q = s.load q := rfl
@[simp] theorem State.timerTick_reg (q : Nibble) : s.timerTick.reg q = s.reg q := rfl
@[simp] theorem State.timerTick_load (q : Nat) : s.timerTick.load q = s.load q := rfl
@[simp] theorem State.keyWrite_reg (q : Nibble) (k : Nibble) (d : Bool) : (s.keyWrite k d).reg q = s.reg q := rfl
@[simp] theorem State.keyWrite_load (q : Nat) (k : Nibble) (d : Bool) : (s.keyWrite k d).load q = s.load q := rfl
@[simp] theorem State.hostMoves_reg (q : Nibble) : s.hostMoves.reg q = s.reg q := rfl
@[simp] theorem State.hostMoves_load (q : Nat) : s.hostMoves.load q = s.load q := rfl
@[simp] theorem State.endTurn_reg (q : Nibble) : s.endTurn.reg q = s.reg q := rfl
@[simp] theorem State.endTurn_load (q : Nat) : s.endTurn.load q = s.load q := rfl

end Sys2Proof.Machine
end

