-- ==== Sys2Proof/Laws/Memory.lean ====
section
/-! SUPPORT. Memory: a read after a write, and the canonical form (spec 20_memory.md R68, R69). The read laws hold for every list of
cells, canonical or not. -/

namespace Sys2Proof.Machine

variable (c : Config) (m : List Host.Cell)

theorem Memory.find_insert (a b : Nat) (v : Byte) :
    Memory.find (Memory.insert m a v) b = if b = a then some v else Memory.find m b := by
  induction m with
  | nil => by_cases h : a = b <;> simp [Memory.insert, Memory.find, h, eq_comm (a := b)]
  | cons cell m ih =>
    obtain ⟨k, w⟩ := cell
    simp only [Memory.insert]
    split
    · by_cases h : a = b <;> simp [Memory.find, h, eq_comm (a := b)]
    · split
      · subst k; by_cases h : a = b <;> simp [Memory.find, h, eq_comm (a := b)]
      · simp only [Memory.find, ih]
        by_cases h : b = a <;> by_cases h' : k = b <;> simp_all

theorem Memory.find_erase (a b : Nat) :
    Memory.find (Memory.erase m a) b = if b = a then none else Memory.find m b := by
  induction m with
  | nil => simp [Memory.erase, Memory.find]
  | cons cell m ih =>
    obtain ⟨k, w⟩ := cell
    simp only [Memory.erase] at ih
    by_cases hk : k = a
    · subst k; by_cases h : b = a <;> simp_all [Memory.erase, Memory.find, eq_comm]
    · by_cases h : b = a <;> by_cases h' : k = b <;> simp_all [Memory.erase, Memory.find]

/-- A read after a write: the byte written at its own address, the old byte at every other. -/
theorem Memory.read_write (a b : Nat) (v : Byte) :
    Memory.read c (Memory.write c m a v) b = if b = a then v else Memory.read c m b := by
  unfold Memory.read Memory.write
  split
  · by_cases h : b = a <;> simp_all [Memory.find_erase]
  · by_cases h : b = a <;> simp_all [Memory.find_insert]

@[simp] theorem Memory.read_nil (a : Nat) : Memory.read c [] a = Memory.blank c a := rfl

/-! ### The canonical form -/

theorem Memory.wfFrom_mono {lo lo' : Nat} (h : lo' ≤ lo) (hw : Memory.wfFrom c lo m = true) :
    Memory.wfFrom c lo' m = true := by
  cases m with
  | nil => rfl
  | cons cell m =>
    obtain ⟨k, w⟩ := cell
    simp only [Memory.wfFrom, Bool.and_eq_true, decide_eq_true_eq] at hw ⊢
    exact ⟨⟨⟨by omega, hw.1.1.2⟩, hw.1.2⟩, hw.2⟩

theorem Memory.wfFrom_insert {lo a : Nat} {v : Byte} (hlo : lo ≤ a) (ha : a < 4096) (hv : v ≠ Memory.blank c a)
    (hw : Memory.wfFrom c lo m = true) : Memory.wfFrom c lo (Memory.insert m a v) = true := by
  induction m generalizing lo with
  | nil => simp [Memory.insert, Memory.wfFrom, hlo, ha, hv]
  | cons cell m ih =>
    obtain ⟨k, w⟩ := cell
    simp only [Memory.wfFrom, Bool.and_eq_true, decide_eq_true_eq] at hw
    simp only [Memory.insert]
    split
    · have : a + 1 ≤ k := by omega
      simp_all [Memory.wfFrom]
    · split
      · simp_all [Memory.wfFrom]
      · have := ih (lo := k + 1) (by omega) hw.2
        simp_all [Memory.wfFrom]

theorem Memory.wfFrom_erase {lo : Nat} (a : Nat) (hw : Memory.wfFrom c lo m = true) :
    Memory.wfFrom c lo (Memory.erase m a) = true := by
  induction m generalizing lo with
  | nil => rfl
  | cons cell m ih =>
    obtain ⟨k, w⟩ := cell
    simp only [Memory.wfFrom, Bool.and_eq_true, decide_eq_true_eq] at hw
    have h1 := ih hw.2
    by_cases hk : k = a
    · have : Memory.erase ((k, w) :: m) a = Memory.erase m a := by simp [Memory.erase, hk]
      rw [this]
      exact Memory.wfFrom_mono c _ (by omega) h1
    · have : Memory.erase ((k, w) :: m) a = (k, w) :: Memory.erase m a := by simp [Memory.erase, hk]
      rw [this]
      simp_all [Memory.wfFrom]

/-- A write inside the 4096 bytes keeps the canonical form. -/
theorem Memory.wf_write {a : Nat} (ha : a < 4096) (v : Byte) (hw : Memory.wf c m = true) :
    Memory.wf c (Memory.write c m a v) = true := by
  unfold Memory.write
  split
  · exact Memory.wfFrom_erase c m a hw
  · rename_i h
    exact Memory.wfFrom_insert c m (Nat.zero_le _) ha h hw

/-- Consecutive writes inside the 4096 bytes keep the canonical form. -/
theorem Memory.wf_writeAll (bs : List Byte) {a : Nat} (ha : a + bs.length ≤ 4096) (hw : Memory.wf c m = true) :
    Memory.wf c (Memory.writeAll c m a bs) = true := by
  induction bs generalizing m a with
  | nil => exact hw
  | cons b bs ih =>
    simp only [List.length_cons] at ha
    exact ih _ (by omega) (Memory.wf_write c m (by omega) b hw)

/-- Consecutive writes: byte j of the list at `a + j`, every other address as before. -/
theorem Memory.read_writeAll (bs : List Byte) (a b : Nat) :
    Memory.read c (Memory.writeAll c m a bs) b = if a ≤ b then (bs[b - a]?).getD (Memory.read c m b) else Memory.read c m b := by
  induction bs generalizing m a with
  | nil => simp [Memory.writeAll]
  | cons v bs ih =>
    rw [Memory.writeAll, ih, Memory.read_write]
    by_cases h : a + 1 ≤ b
    · have h1 : b - a = (b - (a + 1)) + 1 := by omega
      have h2 : ¬ b = a := by omega
      have h3 : a ≤ b := by omega
      simp [h, h2, h3, h1]
    · by_cases h2 : b = a
      · subst b; simp [h]
      · have : ¬ a ≤ b := by omega
        simp [h, h2, this]

/-- The memory of the reset state is in canonical form. -/
theorem State.reset_mem_wf : Memory.wf State.reset.cfg State.reset.mem = true := rfl

/-! ### Loads and stores of the machine -/

/-- Loads are determined by memory and parameters. -/
theorem State.load_congr {s t : State} (hm : t.mem = s.mem) (hc : t.cfg = s.cfg) (a : Nat) : t.load a = s.load a := by
  simp [State.load, hm, hc]

/-- A load after a store: the byte stored where the address is writable, the old byte everywhere else. -/
theorem State.load_store (s : State) (a b : Nat) (v : Byte) :
    (s.store a v).load b = if b = a ∧ s.writable a = true then v else s.load b := by
  unfold State.load
  rw [State.store_mem, State.store_cfg]
  by_cases h : s.writable a = true
  · simp [h, Memory.read_write]
  · simp [h]

@[simp] theorem State.writable_store (s : State) (a b : Nat) (v : Byte) : (s.store a v).writable b = s.writable b := rfl

/-- A store keeps the canonical form. -/
theorem State.store_memOk (s : State) (a : Nat) (v : Byte) (h : s.memOk) : (s.store a v).memOk := by
  unfold State.memOk
  rw [State.store_cfg, State.store_mem]
  by_cases hw : s.writable a = true
  · rw [if_pos hw]
    refine Memory.wf_write _ _ ?_ v h
    simp only [State.writable, Bool.and_eq_true, decide_eq_true_eq] at hw
    omega
  · rw [if_neg hw]; exact h

/-- Placing an instruction's bytes keeps the canonical form. -/
theorem State.placeBytes_memOk (s : State) (hi lo : Byte) (h : s.memOk) : (s.placeBytes hi lo).memOk := by
  have hp : (if s.pc.toNat ≤ 4094 then s.pc else 0x200#16).toNat ≤ 4094 := by split <;> simp_all
  exact Memory.wf_write _ _ (by omega) lo (Memory.wf_write _ _ (by omega) hi h)

end Sys2Proof.Machine
end

