-- ==== Sys2Proof/Laws/Ops.lean ====
section
/-! SUPPORT. What each shared operation over registers, the call stack and fetch does, said once. -/

namespace Sys2Proof.Machine

/-! ### Registers -/

/-- A register after a register write. -/
theorem State.reg_setV (s : State) (r q : Nibble) (w : Word) :
    (s.setV r w).reg q = if q = r then w else s.reg q := by
  simp only [State.reg, State.setV, Vector.getElem_set]
  by_cases h : q = r
  · simp [h]
  · have h1 : r.toNat ≠ q.toNat := fun hh => h (BitVec.eq_of_toNat_eq hh.symm)
    simp [h, h1]

@[simp] theorem State.reg_setV_self (s : State) (r : Nibble) (w : Word) : (s.setV r w).reg r = w := by
  simp [State.reg_setV]

theorem State.reg_setV_of_ne (s : State) {r q : Nibble} (h : q ≠ r) (w : Word) : (s.setV r w).reg q = s.reg q := by
  simp [State.reg_setV, h]

/-- A register after a flag write. -/
theorem State.reg_setFlag (s : State) (q : Nibble) (b : Bool) :
    (s.setFlag b).reg q = if q = VF then flagWord b else s.reg q := State.reg_setV s VF q _

/-- A register after the statements 8XY5 and 8XY7 share. -/
theorem State.reg_absDiff (s : State) (x q : Nibble) (a b : Word) :
    (s.absDiff x a b).reg q = if q = x then BitVec.ofNat 16 ((a.toNat : Int) - (b.toNat : Int)).natAbs
      else if q = VF then flagWord (noBorrow a b) else s.reg q := by
  simp only [State.absDiff, State.reg_setV, State.reg_setFlag]

theorem State.reset_reg (r : Nibble) : State.reset.reg r = 0 := by
  simp [State.reg, State.reset]

/-- Two states with the same V have the same registers. -/
theorem State.reg_congr {s t : State} (h : t.V = s.V) (r : Nibble) : t.reg r = s.reg r := by
  simp [State.reg, h]

/-- Two states with the same registers have the same V. -/
theorem State.V_ext {s t : State} (h : ∀ r, t.reg r = s.reg r) : t.V = s.V := by
  apply Vector.ext
  intro k hk
  have := h (BitVec.ofNat 4 k)
  simpa [State.reg, Nat.mod_eq_of_lt (show k < 16 from hk)] using this

/-! ### Bytes and cells -/

@[simp] theorem zext16_toNat (b : Byte) : (zext16 b).toNat = b.toNat := by
  simp only [zext16, BitVec.toNat_setWidth]; omega

@[simp] theorem zextAddr_toNat (n : Addr) : (zextAddr n).toNat = n.toNat := by
  simp only [zextAddr, BitVec.toNat_setWidth]; omega

@[simp] theorem zextKey_toNat (k : Nibble) : (zextKey k).toNat = k.toNat := by
  simp only [zextKey, BitVec.toNat_setWidth]; omega

@[simp] theorem lo8_toNat (w : Word) : (lo8 w).toNat = w.toNat % 256 := by
  simp [lo8]

theorem flagWord_toNat (b : Bool) : (flagWord b).toNat = if b then 1 else 0 := by cases b <;> rfl

@[simp] theorem nibble_ofNat_toNat (k : Nibble) : BitVec.ofNat 4 k.toNat = k := by simp

/-! ### The address register -/

theorem State.iWrite_I_toNat (s : State) (v : Nat) : (s.iWrite v).I.toNat = v % 4096 := by
  simp only [State.iWrite_I, BitVec.toNat_ofNat]; omega

/-- `IWrite` leaves I at most 0xFFF. -/
theorem State.iWrite_indexOk (s : State) (v : Nat) : (s.iWrite v).indexOk := by
  unfold State.indexOk; rw [State.iWrite_I_toNat]; omega

/-! ### The call stack -/

/-- `push` answers exactly where fewer than 48 entries are in use; then the cell at the old sp holds the value and every other field
and cell is as before. -/
theorem State.push_eq_some {s t : State} {v : Word} :
    s.push v = some t ↔ ∃ h : s.sp.val < 48,
      t = { s with stack := s.stack.set s.sp.val v h, sp := ⟨s.sp.val + 1, by omega⟩ } := by
  unfold State.push
  split
  · rename_i h; simp [h, eq_comm]
  · rename_i h; simp [h]

theorem State.push_eq_none {s : State} {v : Word} : s.push v = none ↔ s.sp.val = 48 := by
  have := s.sp.isLt
  unfold State.push
  split
  · rename_i h; simp; omega
  · rename_i h; simp; omega

/-- `pop` answers exactly where an entry is in use; then it is the newest one, and only sp changes. -/
theorem State.pop_eq_some {s t : State} {a : Word} :
    s.pop = some (a, t) ↔ ∃ h : 0 < s.sp.val,
      a = s.stack[s.sp.val - 1]'(by have := s.sp.isLt; omega) ∧
      t = { s with sp := ⟨s.sp.val - 1, by have := s.sp.isLt; omega⟩ } := by
  unfold State.pop
  split
  · rename_i h; simp [h, eq_comm]
  · rename_i h; simp [h]

theorem State.pop_eq_none {s : State} : s.pop = none ↔ s.sp.val = 0 := by
  unfold State.pop
  split
  · rename_i h; simp; omega
  · rename_i h; simp; omega

/-! ### The checks made before an access -/

theorem checkLoad_eq_none {a n : Nat} : checkLoad a n = none ↔ a + n - 1 ≤ 4095 := by
  unfold checkLoad; split <;> simp <;> omega

theorem checkLoad_eq_some {a n : Nat} {p : Cause × Nat} :
    checkLoad a n = some p ↔ a + n - 1 > 4095 ∧ p = (.addressOutOfRange, 4096) := by
  unfold checkLoad; split <;> simp_all [eq_comm]

theorem State.checkStore_eq_none {s : State} {a n : Nat} :
    s.checkStore a n = none ↔ a + n - 1 ≤ 4095 ∧ ¬ (a < 512 ∧ s.cfg.lowWritePolicy = .fault) := by
  unfold State.checkStore
  split
  · simp; omega
  · split <;> simp_all

theorem State.checkStore_eq_some {s : State} {a n : Nat} {p : Cause × Nat} :
    s.checkStore a n = some p ↔ (a + n - 1 > 4095 ∧ p = (.addressOutOfRange, 4096)) ∨
      (a + n - 1 ≤ 4095 ∧ a < 512 ∧ s.cfg.lowWritePolicy = .fault ∧ p = (.storeToProtected, a)) := by
  unfold State.checkStore
  split
  · simp_all [eq_comm]; omega
  · split <;> simp_all [eq_comm]

/-! ### Fetch -/

theorem State.fetch_eq_none {s : State} : s.fetch = none ↔ 4094 < s.pc.toNat := by
  unfold State.fetch; split <;> simp_all

theorem State.fetch_eq_some {s : State} {op : Word} :
    s.fetch = some op ↔ s.pc.toNat ≤ 4094 ∧ s.load s.pc.toNat ++ s.load (s.pc.toNat + 1) = op := by
  unfold State.fetch; split <;> simp_all

/-! ### Keys -/

theorem keyIndex_eq_none {w : Word} : keyIndex w = none ↔ 15 < w.toNat := by
  unfold keyIndex; split <;> simp_all

theorem keyIndex_eq_some {w : Word} {k : Nibble} : keyIndex w = some k ↔ w.toNat = k.toNat := by
  have hk := k.isLt
  unfold keyIndex
  split
  · simp; omega
  · rename_i h
    simp only [Option.some.injEq]
    constructor
    · intro hh; subst hh; simp; omega
    · intro hh; rw [hh]; simp

end Sys2Proof.Machine
end

