-- ==== Sys2Proof/Laws/Bulk.lean ====
section
/-! SUPPORT. The transfers of several bytes, FX33, FX55 and FX65 (spec 43_index_memory.md R174 to R176), as what a register or a
byte reads as afterwards. -/

namespace Sys2Proof.Machine

theorem mem_regsTo {x k : Nibble} : k ∈ regsTo x ↔ k.toNat ≤ x.toNat := by
  have hk := k.isLt
  simp only [regsTo, List.mem_map, List.mem_range]
  constructor
  · rintro ⟨n, hn, rfl⟩
    have := x.isLt
    simp only [BitVec.toNat_ofNat]; omega
  · intro h
    exact ⟨k.toNat, by omega, by simp⟩

/-! ### Loads -/

/-- Registers loaded one after another from values fixed beforehand. -/
theorem State.reg_foldl_setV (ks : List Nibble) (f : Nibble → Word) (s : State) (q : Nibble) :
    (ks.foldl (fun t k => t.setV k (f k)) s).reg q = if q ∈ ks then f q else s.reg q := by
  induction ks generalizing s with
  | nil => simp
  | cons k ks ih =>
    rw [List.foldl_cons, ih, State.reg_setV]
    by_cases h : q ∈ ks <;> by_cases h' : q = k <;> simp [h, h']

/-- Loading registers changes V only. -/
theorem State.foldl_setV_eq (ks : List Nibble) (f : Nibble → Word) (s : State) :
    ks.foldl (fun t k => t.setV k (f k)) s = { s with V := (ks.foldl (fun t k => t.setV k (f k)) s).V } := by
  induction ks generalizing s with
  | nil => rfl
  | cons k ks ih => rw [List.foldl_cons, ih]; rfl

/-- FX65's loads change V only. -/
theorem State.loadAll_eq (s : State) (x : Nibble) : s.loadAll x = { s with V := (s.loadAll x).V } :=
  State.foldl_setV_eq _ _ s

/-- FX65's loads: register k ≤ X gets the byte at I + k, every other register stays. -/
theorem State.reg_loadAll (s : State) (x q : Nibble) :
    (s.loadAll x).reg q = if q.toNat ≤ x.toNat then zext16 (s.load (s.effAddr q.toNat)) else s.reg q := by
  unfold State.loadAll
  rw [State.reg_foldl_setV (f := fun k => zext16 (s.load (s.effAddr k.toNat)))]
  simp [mem_regsTo]

/-! ### Stores -/

/-- Bytes stored at distinct addresses from values fixed beforehand. -/
theorem State.load_foldl_store (ks : List Nibble) (addr : Nibble → Nat) (v : Nibble → Byte) (s : State) (a : Nat)
    (hinj : ∀ k ∈ ks, ∀ j ∈ ks, addr k = addr j → k = j) :
    (∀ k ∈ ks, a = addr k → s.writable a = true → (ks.foldl (fun t k => t.store (addr k) (v k)) s).load a = v k) ∧
    ((∀ k ∈ ks, a = addr k → s.writable a = false) → (ks.foldl (fun t k => t.store (addr k) (v k)) s).load a = s.load a) := by
  induction ks using List.reverseRecOn with
  | nil => simp
  | append_singleton ks j ih =>
    obtain ⟨h1, h2⟩ := ih (fun k hk l hl => hinj k (by simp [hk]) l (by simp [hl]))
    have hw : ∀ (l : List Nibble) (t : State) (b : Nat),
        (l.foldl (fun t k => t.store (addr k) (v k)) t).writable b = t.writable b := by
      intro l
      induction l with
      | nil => intro t b; rfl
      | cons k l ih => intro t b; rw [List.foldl_cons, ih, State.writable_store]
    rw [List.foldl_append, List.foldl_cons, List.foldl_nil]
    refine ⟨fun k hk ha hwr => ?_, fun h => ?_⟩
    · rw [State.load_store, hw]
      by_cases hj : a = addr j
      · have : k = j := hinj k hk j (by simp) (ha.symm.trans hj)
        subst this
        rw [if_pos ⟨hj, hj ▸ hwr⟩]
      · rw [if_neg (fun hh => hj hh.1)]
        have hk' : k ∈ ks := by
          rcases List.mem_append.mp hk with hk' | hk'
          · exact hk'
          · simp only [List.mem_singleton] at hk'; subst hk'; exact absurd ha hj
        exact h1 k hk' ha hwr
    · rw [State.load_store, hw]
      rw [if_neg (fun hh => by have := h j (by simp) hh.1; rw [hh.1] at this; simp [this] at hh)]
      exact h2 fun k hk ha => h k (by simp [hk]) ha

/-- Storing changes memory only. -/
theorem State.foldl_store_eq (ks : List Nibble) (addr : Nibble → Nat) (v : Nibble → Byte) (s : State) :
    ks.foldl (fun t k => t.store (addr k) (v k)) s = { s with mem := (ks.foldl (fun t k => t.store (addr k) (v k)) s).mem } := by
  induction ks generalizing s with
  | nil => rfl
  | cons k ks ih => rw [List.foldl_cons, ih]; rfl

/-- Storing keeps the canonical form. -/
theorem State.foldl_store_memOk (ks : List Nibble) (addr : Nibble → Nat) (v : Nibble → Byte) (s : State) (h : s.memOk) :
    (ks.foldl (fun t k => t.store (addr k) (v k)) s).memOk := by
  induction ks generalizing s with
  | nil => exact h
  | cons k ks ih => exact ih _ (State.store_memOk s _ _ h)

/-- FX55's stores change memory only. -/
theorem State.storeAll_eq (s : State) (x : Nibble) : s.storeAll x = { s with mem := (s.storeAll x).mem } :=
  State.foldl_store_eq _ _ _ s

/-- FX55's stores: the byte at I + k is the low byte of register k ≤ X where that address is writable, every other byte stays. -/
theorem State.load_storeAll (s : State) (x : Nibble) (a : Nat) :
    (∀ k : Nibble, k.toNat ≤ x.toNat → a = s.effAddr k.toNat → s.writable a = true → (s.storeAll x).load a = lo8 (s.reg k)) ∧
    ((∀ k : Nibble, k.toNat ≤ x.toNat → a = s.effAddr k.toNat → s.writable a = false) → (s.storeAll x).load a = s.load a) := by
  have h := State.load_foldl_store (regsTo x) (fun k => s.effAddr k.toNat) (fun k => lo8 (s.reg k)) s a
    (fun k _ j _ hkj => BitVec.eq_of_toNat_eq (by simpa [State.effAddr] using hkj))
  exact ⟨fun k hk => h.1 k (mem_regsTo.mpr hk), fun hh => h.2 fun k hk => hh k (mem_regsTo.mp hk)⟩

/-- FX55's stores keep the canonical form. -/
theorem State.storeAll_memOk (s : State) (x : Nibble) (h : s.memOk) : (s.storeAll x).memOk :=
  State.foldl_store_memOk _ _ _ s h

/-- FX33's three stores: the digit at I, I + 1, I + 2 where that address is writable, every other byte stays. -/
theorem State.load_storeBcd (s : State) (w : Word) (a : Nat) :
    (s.storeBcd w).load a =
      if a = s.effAddr 2 ∧ s.writable a = true then bcdOnes w
      else if a = s.effAddr 1 ∧ s.writable a = true then bcdTens w
      else if a = s.effAddr 0 ∧ s.writable a = true then bcdHundreds w
      else s.load a := by
  unfold State.storeBcd
  simp only [State.load_store, State.writable_store]
  by_cases h2 : a = s.effAddr 2
  · subst h2; simp only [true_and]
    have h1 : s.effAddr 2 ≠ s.effAddr 1 := by simp [State.effAddr]
    have h0 : s.effAddr 2 ≠ s.effAddr 0 := by simp [State.effAddr]
    simp [h1, h0]
  · by_cases h1 : a = s.effAddr 1
    · subst h1
      have h0 : s.effAddr 1 ≠ s.effAddr 0 := by simp [State.effAddr]
      simp [h2, h0]
    · by_cases h0 : a = s.effAddr 0
      · subst h0; simp [h1, h2]
      · simp [h0, h1, h2]

/-- FX33's stores keep the canonical form. -/
theorem State.storeBcd_memOk (s : State) (w : Word) (h : s.memOk) : (s.storeBcd w).memOk :=
  State.store_memOk _ _ _ (State.store_memOk _ _ _ (State.store_memOk _ _ _ h))

/-- Inside the range a completed store of `n` bytes covers, the addresses that can be written are those it writes. -/
theorem State.writable_iff_storesAt (s : State) {n a : Nat} (h1 : s.I.toNat ≤ a) (h2 : a < s.I.toNat + n)
    (hn : s.I.toNat + n ≤ 4096) : s.writable a = true ↔ s.storesAt n a := by
  simp only [State.writable, State.storesAt, Bool.and_eq_true, decide_eq_true_eq, Bool.or_eq_true, beq_iff_eq]
  constructor
  · rintro ⟨_, h⟩; exact ⟨h1, h2, h⟩
  · rintro ⟨_, _, h⟩; exact ⟨by omega, h⟩

end Sys2Proof.Machine
end

