-- ==== Sys2Proof/Laws/Decode.lean ====
section
/-! SUPPORT. The fields of a word put together from fields (spec 30_encoding.md R91 to R93). -/

namespace Sys2Proof

/-! ### The bits of a word put together from fields -/

theorem getLsbD_wordNNN (f : Nibble) (a : Addr) (k : Nat) :
    (wordNNN f a).getLsbD k = if k < 12 then a.getLsbD k else f.getLsbD (k - 12) :=
  BitVec.getLsbD_append (x := f) (y := a) (i := k)

theorem getLsbD_wordXNN (f x : Nibble) (nn : Byte) (k : Nat) :
    (wordXNN f x nn).getLsbD k =
      if k < 8 then nn.getLsbD k else if k < 12 then x.getLsbD (k - 8) else f.getLsbD (k - 12) := by
  have h1 : (wordXNN f x nn).getLsbD k = if k < 12 then (x ++ nn).getLsbD k else f.getLsbD (k - 12) :=
    BitVec.getLsbD_append (x := f) (y := x ++ nn) (i := k)
  rw [h1, BitVec.getLsbD_append (x := x) (y := nn)]
  by_cases h8 : k < 8 <;> by_cases h12 : k < 12 <;> simp [h8, h12]
  omega

theorem getLsbD_wordOfNibbles (a b c d : Nibble) (k : Nat) :
    (wordOfNibbles a b c d).getLsbD k =
      if k < 4 then d.getLsbD k else if k < 8 then c.getLsbD (k - 4)
      else if k < 12 then b.getLsbD (k - 8) else a.getLsbD (k - 12) := by
  have h1 : (wordOfNibbles a b c d).getLsbD k =
      if k < 12 then (b ++ (c ++ d)).getLsbD k else a.getLsbD (k - 12) :=
    BitVec.getLsbD_append (x := a) (y := b ++ (c ++ d)) (i := k)
  rw [h1, BitVec.getLsbD_append (x := b) (y := c ++ d), BitVec.getLsbD_append (x := c) (y := d)]
  by_cases h4 : k < 4 <;> by_cases h8 : k < 8 <;> by_cases h12 : k < 12 <;> simp [h4, h8, h12] <;> omega

/-! ### Form `nnn` -/

@[simp] theorem nibble0_wordNNN (f : Nibble) (a : Addr) : nibble0 (wordNNN f a) = f :=
  BitVec.eq_of_getLsbD_eq fun k hk => by
    simp [nibble0, getLsbD_wordNNN, hk]

@[simp] theorem fieldNNN_wordNNN (f : Nibble) (a : Addr) : fieldNNN (wordNNN f a) = a :=
  BitVec.eq_of_getLsbD_eq fun k hk => by
    simp [fieldNNN, getLsbD_wordNNN, hk]

/-! ### Form `xnn` -/

@[simp] theorem nibble0_wordXNN (f x : Nibble) (nn : Byte) : nibble0 (wordXNN f x nn) = f :=
  BitVec.eq_of_getLsbD_eq fun k hk => by
    have : ¬ 12 + k < 8 := by omega
    simp [nibble0, getLsbD_wordXNN, hk, this]

@[simp] theorem fieldX_wordXNN (f x : Nibble) (nn : Byte) : fieldX (wordXNN f x nn) = x :=
  BitVec.eq_of_getLsbD_eq fun k hk => by
    have : 8 + k < 12 := by omega
    simp [fieldX, getLsbD_wordXNN, hk, this]

@[simp] theorem fieldNN_wordXNN (f x : Nibble) (nn : Byte) : fieldNN (wordXNN f x nn) = nn :=
  BitVec.eq_of_getLsbD_eq fun k hk => by
    simp [fieldNN, getLsbD_wordXNN, hk]

/-! ### Form `xyn` -/

@[simp] theorem nibble0_wordOfNibbles (a b c d : Nibble) : nibble0 (wordOfNibbles a b c d) = a :=
  BitVec.eq_of_getLsbD_eq fun k hk => by
    have h4 : ¬ 12 + k < 4 := by omega
    have h8 : ¬ 12 + k < 8 := by omega
    simp [nibble0, getLsbD_wordOfNibbles, hk, h4, h8]

@[simp] theorem fieldX_wordOfNibbles (a b c d : Nibble) : fieldX (wordOfNibbles a b c d) = b :=
  BitVec.eq_of_getLsbD_eq fun k hk => by
    have h4 : ¬ 8 + k < 4 := by omega
    have h12 : 8 + k < 12 := by omega
    simp [fieldX, getLsbD_wordOfNibbles, hk, h4, h12]

@[simp] theorem fieldY_wordOfNibbles (a b c d : Nibble) : fieldY (wordOfNibbles a b c d) = c :=
  BitVec.eq_of_getLsbD_eq fun k hk => by
    have h8 : 4 + k < 8 := by omega
    simp [fieldY, getLsbD_wordOfNibbles, hk, h8]

@[simp] theorem fieldN_wordOfNibbles (a b c d : Nibble) : fieldN (wordOfNibbles a b c d) = d :=
  BitVec.eq_of_getLsbD_eq fun k hk => by
    simp [fieldN, getLsbD_wordOfNibbles, hk]

/-! ### A word is its fields -/

theorem eq_wordNNN (op : Word) : op = wordNNN (nibble0 op) (fieldNNN op) :=
  BitVec.eq_of_getLsbD_eq fun k hk => by
    rw [getLsbD_wordNNN]
    simp only [nibble0, fieldNNN, BitVec.getLsbD_extractLsb']
    split
    · rename_i h; simp [h]
    · rename_i h
      have h1 : k - 12 < 4 := by omega
      have h2 : 12 + (k - 12) = k := by omega
      simp [h1, h2]

theorem eq_wordXNN (op : Word) : op = wordXNN (nibble0 op) (fieldX op) (fieldNN op) :=
  BitVec.eq_of_getLsbD_eq fun k hk => by
    rw [getLsbD_wordXNN]
    simp only [nibble0, fieldX, fieldNN, BitVec.getLsbD_extractLsb']
    by_cases h8 : k < 8
    · simp [h8]
    · by_cases h12 : k < 12
      · have h1 : k - 8 < 4 := by omega
        have h2 : 8 + (k - 8) = k := by omega
        simp [h8, h12, h1, h2]
      · have h1 : k - 12 < 4 := by omega
        have h2 : 12 + (k - 12) = k := by omega
        simp [h8, h12, h1, h2]

theorem eq_wordOfNibbles (op : Word) : op = wordOfNibbles (nibble0 op) (fieldX op) (fieldY op) (fieldN op) :=
  BitVec.eq_of_getLsbD_eq fun k hk => by
    rw [getLsbD_wordOfNibbles]
    simp only [nibble0, fieldX, fieldY, fieldN, BitVec.getLsbD_extractLsb']
    by_cases h4 : k < 4
    · simp [h4]
    · by_cases h8 : k < 8
      · have h1 : k - 4 < 4 := by omega
        have h2 : 4 + (k - 4) = k := by omega
        simp [h4, h8, h1, h2]
      · by_cases h12 : k < 12
        · have h1 : k - 8 < 4 := by omega
          have h2 : 8 + (k - 8) = k := by omega
          simp [h4, h8, h12, h1, h2]
        · have h1 : k - 12 < 4 := by omega
          have h2 : 12 + (k - 12) = k := by omega
          simp [h4, h8, h12, h1, h2]

/-- The two bytes of a word, as the decoder joins them, are the word. -/
@[simp] theorem highByte_append_lowByte (op : Word) : highByte op ++ lowByte op = op :=
  BitVec.eq_of_getLsbD_eq fun k hk => by
    rw [BitVec.getLsbD_append]
    simp only [highByte, lowByte, BitVec.getLsbD_extractLsb']
    split
    · rename_i h; simp [h]
    · rename_i h
      have h1 : k - 8 < 8 := by omega
      have h2 : 8 + (k - 8) = k := by omega
      simp [h1, h2]

end Sys2Proof
end

