-- ==== Sys2Proof/Laws/Draw.lean ====
section
/-! SUPPORT. The framebuffer: a pixel after a pixel write, after one drawn pixel, one drawn row and the drawn rows (spec 45_draw.md
R193 to R199). -/

namespace Sys2Proof.Machine

/-- A pixel after a pixel write inside the 2048 cells. -/
theorem pixel_setPixel (fb : BitVec 2048) {k : Nat} (hk : k < 2048) (b : Bool) (j : Nat) :
    pixel (setPixel fb k b) j = if j = k then b else pixel fb j := by
  unfold pixel setPixel
  by_cases hj : j < 2048
  · cases b <;> by_cases h : k = j <;>
      simp only [Bool.false_eq_true, ↓reduceIte, BitVec.getLsbD_and, BitVec.getLsbD_or, BitVec.getLsbD_not,
        BitVec.getLsbD_twoPow, hk, hj, h, eq_comm (a := j), decide_true, decide_false, Bool.and_true, Bool.and_false,
        Bool.or_true, Bool.or_false, Bool.not_true, Bool.not_false]
  · have h : j ≠ k := by omega
    rw [if_neg h, BitVec.getLsbD_of_ge _ _ (Nat.le_of_not_lt hj), BitVec.getLsbD_of_ge _ _ (Nat.le_of_not_lt hj)]

/-- Framebuffers with the same 2048 pixels are equal. -/
theorem fb_ext {a b : BitVec 2048} (h : ∀ k, k < 2048 → pixel a k = pixel b k) : a = b :=
  BitVec.eq_of_getLsbD_eq h

@[simp] theorem pixel_zero (k : Nat) : pixel 0#2048 k = false := by simp [pixel]

theorem pixel_of_ge (fb : BitVec 2048) {k : Nat} (h : 2048 ≤ k) : pixel fb k = false := BitVec.getLsbD_of_ge _ _ h

/-- A pixel after one drawn pixel. -/
theorem pixel_drawPixel {k : Nat} (hk : k < 2048) (bit : Bool) (p : BitVec 2048 × Bool) (j : Nat) :
    pixel (drawPixel k bit p).1 j = if j = k then Bool.xor (pixel p.1 k) bit else pixel p.1 j :=
  pixel_setPixel p.1 hk _ j

/-- Distinct cells drawn one after another: each cell once, from its value before, and a collision where any of them collides. -/
theorem foldl_drawPixel (n : Nat) (cell : Nat → Nat) (bit : Nat → Bool) (p : BitVec 2048 × Bool)
    (hlt : ∀ c, c < n → cell c < 2048) (hinj : ∀ c d, c < n → d < n → cell c = cell d → c = d) :
    (∀ c, c < n → pixel ((List.range n).foldl (fun p c => drawPixel (cell c) (bit c) p) p).1 (cell c)
        = Bool.xor (pixel p.1 (cell c)) (bit c)) ∧
    (∀ j, (∀ c, c < n → j ≠ cell c) →
        pixel ((List.range n).foldl (fun p c => drawPixel (cell c) (bit c) p) p).1 j = pixel p.1 j) ∧
    (((List.range n).foldl (fun p c => drawPixel (cell c) (bit c) p) p).2 = true ↔
        p.2 = true ∨ ∃ c, c < n ∧ pixel p.1 (cell c) = true ∧ bit c = true) := by
  induction n with
  | zero => simp
  | succ n ih =>
    obtain ⟨h1, h2, h3⟩ := ih (fun c hc => hlt c (by omega)) (fun c d hc hd => hinj c d (by omega) (by omega))
    rw [List.range_succ, List.foldl_append, List.foldl_cons, List.foldl_nil]
    set q := (List.range n).foldl (fun p c => drawPixel (cell c) (bit c) p) p with hq
    have hn : ∀ c, c < n → cell n ≠ cell c := fun c hc h => by
      have := hinj n c (by omega) (by omega) h; omega
    have hold : pixel q.1 (cell n) = pixel p.1 (cell n) := h2 _ hn
    refine ⟨fun c hc => ?_, fun j hj => ?_, ?_⟩
    · rw [pixel_drawPixel (hlt n (by omega))]
      by_cases h : c = n
      · subst h; rw [if_pos rfl, hold]
      · rw [if_neg (fun hh => hn c (by omega) hh.symm)]; exact h1 c (by omega)
    · rw [pixel_drawPixel (hlt n (by omega)), if_neg (hj n (by omega))]
      exact h2 j fun c hc => hj c (by omega)
    · have : (drawPixel (cell n) (bit n) q).2 = (q.2 || collides (pixel q.1 (cell n)) (bit n)) := rfl
      rw [this, hold]
      simp only [collides, Bool.or_eq_true, Bool.and_eq_true, h3]
      constructor
      · rintro ((h | ⟨c, hc, h⟩) | h)
        · exact .inl h
        · exact .inr ⟨c, by omega, h⟩
        · exact .inr ⟨n, by omega, h⟩
      · rintro (h | ⟨c, hc, h⟩)
        · exact .inl (.inl h)
        · by_cases hcn : c = n
          · subst hcn; exact .inr h
          · exact .inl (.inr ⟨c, by omega, h⟩)

/-- One drawn row, for a start column and a row on the screen: the drawn columns get the exclusive or with their sprite bits, every
other pixel stays, and the accumulator is set by any collision in the row. -/
theorem drawRow_spec {x0 y : Nat} (hx : x0 < 64) (hy : y < 32) (b : Byte) (p : BitVec 2048 × Bool) :
    (∀ c, c < drawnCols x0 → pixel (drawRow x0 y b p).1 (cellIndex (x0 + c) y)
        = Bool.xor (pixel p.1 (cellIndex (x0 + c) y)) (spriteBit b c)) ∧
    (∀ j, (∀ c, c < drawnCols x0 → j ≠ cellIndex (x0 + c) y) → pixel (drawRow x0 y b p).1 j = pixel p.1 j) ∧
    ((drawRow x0 y b p).2 = true ↔
        p.2 = true ∨ ∃ c, c < drawnCols x0 ∧ pixel p.1 (cellIndex (x0 + c) y) = true ∧ spriteBit b c = true) := by
  refine foldl_drawPixel (drawnCols x0) (fun c => cellIndex (x0 + c) y) (spriteBit b) p (fun c hc => ?_) (fun c d _ _ h => ?_)
  · simp only [drawnCols, cellIndex] at *; omega
  · simp only [cellIndex] at h; omega

/-- The drawn rows of a sprite that starts and ends on the screen: each cell under the sprite once, from its pixel before the draw,
every other pixel stays, and the accumulator is set exactly where a sprite bit 1 met a pixel that was 1. -/
theorem drawSprite_spec (s : State) {x0 y0 rows : Nat} (hx : x0 < 64) (hr : y0 + rows ≤ 32) :
    (∀ r c, r < rows → c < drawnCols x0 → pixel (s.drawSprite x0 y0 rows).1 (cellIndex (x0 + c) (y0 + r))
        = Bool.xor (pixel s.fb (cellIndex (x0 + c) (y0 + r))) (spriteBit (s.load (s.effAddr r)) c)) ∧
    (∀ k, (∀ r c, r < rows → c < drawnCols x0 → k ≠ cellIndex (x0 + c) (y0 + r)) →
        pixel (s.drawSprite x0 y0 rows).1 k = pixel s.fb k) ∧
    ((s.drawSprite x0 y0 rows).2 = true ↔ ∃ r c, r < rows ∧ c < drawnCols x0 ∧
        spriteBit (s.load (s.effAddr r)) c = true ∧ pixel s.fb (cellIndex (x0 + c) (y0 + r)) = true) := by
  unfold State.drawSprite
  induction rows with
  | zero => simp
  | succ n ih =>
    obtain ⟨h1, h2, h3⟩ := ih (by omega)
    rw [List.range_succ, List.foldl_append, List.foldl_cons, List.foldl_nil]
    set q := (List.range n).foldl (fun p r => drawRow x0 (y0 + r) (s.load (s.effAddr r)) p) (s.fb, false)
    obtain ⟨g1, g2, g3⟩ := drawRow_spec hx (show y0 + n < 32 by omega) (s.load (s.effAddr n)) q
    have dc : drawnCols x0 ≤ 64 - x0 := by unfold drawnCols; omega
    have hne : ∀ r c c', r < n → c < drawnCols x0 → c' < drawnCols x0 → cellIndex (x0+c) (y0+r) ≠ cellIndex (x0+c') (y0+n) := by
      intro r c c' hr hc hc'; unfold cellIndex; omega
    have hold : ∀ c, c < drawnCols x0 → pixel q.1 (cellIndex (x0+c) (y0+n)) = pixel s.fb (cellIndex (x0+c) (y0+n)) :=
      fun c hc => h2 _ fun r c' hr hc' h => hne r c' c hr hc' hc h.symm
    refine ⟨fun r c hr hc => ?_, fun k hk => ?_, ?_⟩
    · by_cases hrn : r = n
      · subst hrn; rw [g1 c hc, hold c hc]
      · rw [g2 _ fun c' hc' => hne r c c' (by omega) hc hc']
        exact h1 r c (by omega) hc
    · rw [g2 _ fun c hc => hk n c (by omega) hc]
      exact h2 k fun r c hr hc => hk r c (by omega) hc
    · rw [g3, h3]
      constructor
      · rintro (⟨r, c, hr, hc, h, h'⟩ | ⟨c, hc, h, h'⟩)
        · exact ⟨r, c, by omega, hc, h, h'⟩
        · exact ⟨n, c, by omega, hc, h', by rwa [hold c hc] at h⟩
      · rintro ⟨r, c, hr, hc, h, h'⟩
        by_cases hrn : r = n
        · subst hrn; exact .inr ⟨c, hc, by rwa [hold c hc], h⟩
        · exact .inl ⟨r, c, by omega, hc, h, h'⟩

end Sys2Proof.Machine
end

