-- ==== Sys2Proof/Laws/HostTurns.lean ====
section
/-! SUPPORT. What one event of the host does (spec 10_state.md R48, 60_exceptions.md R244), and that it writes the key latch and the
timers only (20_memory.md R72). -/

namespace Sys2Proof.Machine

theorem tickDown_toNat (t : Byte) : (tickDown t).toNat = t.toNat - 1 := by
  unfold tickDown
  split
  · rename_i h; simp [h]
  · rename_i h
    have h0 : t.toNat ≠ 0 := fun hh => h (BitVec.eq_of_toNat_eq hh)
    have := t.isLt
    have h1 : (1 : Byte).toNat = 1 := rfl
    rw [BitVec.toNat_sub, h1]
    omega

/-- A key after a key write. -/
theorem State.keys_keyWrite (s : State) (k q : Nibble) (d : Bool) :
    (s.keyWrite k d).keys[q.toNat]'q.isLt = if q = k then d else s.keys[q.toNat]'q.isLt := by
  simp only [State.keyWrite, Vector.getElem_set]
  by_cases h : q = k
  · simp [h]
  · have h1 : k.toNat ≠ q.toNat := fun hh => h (BitVec.eq_of_toNat_eq hh.symm)
    simp [h, h1]

/-- One event changes the latch and the timers and nothing else. -/
theorem State.hostEvent_eq (s : State) (e : HostEvent) :
    s.hostEvent e = { s with keys := (s.hostEvent e).keys, dt := (s.hostEvent e).dt, st := (s.hostEvent e).st } := by
  cases e <;> rfl

/-- The latch and the timers after an event depend on the latch and the timers only. -/
theorem State.hostEvent_congr {s t : State} (hk : t.keys = s.keys) (hd : t.dt = s.dt) (hs : t.st = s.st) (e : HostEvent) :
    (t.hostEvent e).keys = (s.hostEvent e).keys ∧ (t.hostEvent e).dt = (s.hostEvent e).dt ∧
      (t.hostEvent e).st = (s.hostEvent e).st := by
  cases e <;> simp [State.hostEvent, hk, hd, hs]

@[simp] theorem State.input_cons (s : State) (t : HostTurn) (ts : List HostTurn) (h : s.script = t :: ts) : s.input = t := by
  simp [State.input, h]

end Sys2Proof.Machine
end

