-- ==== Sys2Proof/Laws/PerInstr.lean ====
section
/-! SUPPORT. Per instruction: the word the encoder gives has the fixed bits of the instruction's row of the opcode table (spec
30_encoding.md R97, R98: a word `op` is the instruction when `op AND mask = match`). -/

namespace Sys2Proof.Laws

/-- An encoded word under a row's mask: the fields the mask covers, zeros elsewhere. -/
theorem wordNNN_mask (f : Nibble) (a : Addr) : wordNNN f a &&& 0xF000#16 = wordNNN f 0#12 :=
  BitVec.eq_of_getLsbD_eq fun k hk => by
    rw [BitVec.getLsbD_and, getLsbD_wordNNN, getLsbD_wordNNN]
    interval_cases k <;> simp

theorem wordXNN_maskFamily (f x : Nibble) (nn : Byte) : wordXNN f x nn &&& 0xF000#16 = wordXNN f 0#4 0#8 :=
  BitVec.eq_of_getLsbD_eq fun k hk => by
    rw [BitVec.getLsbD_and, getLsbD_wordXNN, getLsbD_wordXNN]
    interval_cases k <;> simp

theorem wordXNN_mask (f x : Nibble) (nn : Byte) : wordXNN f x nn &&& 0xF0FF#16 = wordXNN f 0#4 nn :=
  BitVec.eq_of_getLsbD_eq fun k hk => by
    rw [BitVec.getLsbD_and, getLsbD_wordXNN, getLsbD_wordXNN]
    interval_cases k <;> simp

theorem wordOfNibbles_mask (a b c d : Nibble) : wordOfNibbles a b c d &&& 0xF00F#16 = wordOfNibbles a 0#4 0#4 d :=
  BitVec.eq_of_getLsbD_eq fun k hk => by
    rw [BitVec.getLsbD_and, getLsbD_wordOfNibbles, getLsbD_wordOfNibbles]
    interval_cases k <;> simp

theorem wordOfNibbles_maskFamily (a b c d : Nibble) :
    wordOfNibbles a b c d &&& 0xF000#16 = wordOfNibbles a 0#4 0#4 0#4 :=
  BitVec.eq_of_getLsbD_eq fun k hk => by
    rw [BitVec.getLsbD_and, getLsbD_wordOfNibbles, getLsbD_wordOfNibbles]
    interval_cases k <;> simp

theorem wordOfNibbles_mask3 (a b c d : Nibble) : wordOfNibbles a b c d &&& 0xFFF0#16 = wordOfNibbles a b c 0#4 :=
  BitVec.eq_of_getLsbD_eq fun k hk => by
    rw [BitVec.getLsbD_and, getLsbD_wordOfNibbles, getLsbD_wordOfNibbles]
    interval_cases k <;> simp

/-- The word of the instruction, under its row's mask, is its row's match. -/
def MatchMask.Statement (i : Instr) : Prop := encode i &&& i.mask = i.matchBits

theorem MatchMask.cls : MatchMask.Statement .cls :=
  rfl

theorem MatchMask.ret : MatchMask.Statement .ret :=
  rfl

theorem MatchMask.exit : MatchMask.Statement .exit :=
  rfl

theorem MatchMask.jp (nnn : Addr) : MatchMask.Statement (.jp nnn) :=
  (wordNNN_mask ..).trans rfl

theorem MatchMask.call (nnn : Addr) : MatchMask.Statement (.call nnn) :=
  (wordNNN_mask ..).trans rfl

theorem MatchMask.seImm (x : Nibble) (nn : Byte) : MatchMask.Statement (.seImm x nn) :=
  (wordXNN_maskFamily ..).trans rfl

theorem MatchMask.sneImm (x : Nibble) (nn : Byte) : MatchMask.Statement (.sneImm x nn) :=
  (wordXNN_maskFamily ..).trans rfl

theorem MatchMask.seReg (x : Nibble) (y : Nibble) : MatchMask.Statement (.seReg x y) :=
  (wordOfNibbles_mask ..).trans rfl

theorem MatchMask.ldImm (x : Nibble) (nn : Byte) : MatchMask.Statement (.ldImm x nn) :=
  (wordXNN_maskFamily ..).trans rfl

theorem MatchMask.addImm (x : Nibble) (nn : Byte) : MatchMask.Statement (.addImm x nn) :=
  (wordXNN_maskFamily ..).trans rfl

theorem MatchMask.ldReg (x : Nibble) (y : Nibble) : MatchMask.Statement (.ldReg x y) :=
  (wordOfNibbles_mask ..).trans rfl

theorem MatchMask.orReg (x : Nibble) (y : Nibble) : MatchMask.Statement (.orReg x y) :=
  (wordOfNibbles_mask ..).trans rfl

theorem MatchMask.andReg (x : Nibble) (y : Nibble) : MatchMask.Statement (.andReg x y) :=
  (wordOfNibbles_mask ..).trans rfl

theorem MatchMask.xorReg (x : Nibble) (y : Nibble) : MatchMask.Statement (.xorReg x y) :=
  (wordOfNibbles_mask ..).trans rfl

theorem MatchMask.addReg (x : Nibble) (y : Nibble) : MatchMask.Statement (.addReg x y) :=
  (wordOfNibbles_mask ..).trans rfl

theorem MatchMask.subReg (x : Nibble) (y : Nibble) : MatchMask.Statement (.subReg x y) :=
  (wordOfNibbles_mask ..).trans rfl

theorem MatchMask.shr (x : Nibble) (y : Nibble) : MatchMask.Statement (.shr x y) :=
  (wordOfNibbles_mask ..).trans rfl

theorem MatchMask.subnReg (x : Nibble) (y : Nibble) : MatchMask.Statement (.subnReg x y) :=
  (wordOfNibbles_mask ..).trans rfl

theorem MatchMask.shl (x : Nibble) (y : Nibble) : MatchMask.Statement (.shl x y) :=
  (wordOfNibbles_mask ..).trans rfl

theorem MatchMask.sneReg (x : Nibble) (y : Nibble) : MatchMask.Statement (.sneReg x y) :=
  (wordOfNibbles_mask ..).trans rfl

theorem MatchMask.ldI (nnn : Addr) : MatchMask.Statement (.ldI nnn) :=
  (wordNNN_mask ..).trans rfl

theorem MatchMask.jpV0 (nnn : Addr) : MatchMask.Statement (.jpV0 nnn) :=
  (wordNNN_mask ..).trans rfl

theorem MatchMask.rnd (x : Nibble) (nn : Byte) : MatchMask.Statement (.rnd x nn) :=
  (wordXNN_maskFamily ..).trans rfl

theorem MatchMask.drw (x : Nibble) (y : Nibble) (n : Nibble) : MatchMask.Statement (.drw x y n) :=
  (wordOfNibbles_maskFamily ..).trans rfl

theorem MatchMask.skp (x : Nibble) : MatchMask.Statement (.skp x) :=
  (wordXNN_mask ..).trans rfl

theorem MatchMask.sknp (x : Nibble) : MatchMask.Statement (.sknp x) :=
  (wordXNN_mask ..).trans rfl

theorem MatchMask.ldVxDt (x : Nibble) : MatchMask.Statement (.ldVxDt x) :=
  (wordXNN_mask ..).trans rfl

theorem MatchMask.ldVxK (x : Nibble) : MatchMask.Statement (.ldVxK x) :=
  (wordXNN_mask ..).trans rfl

theorem MatchMask.ldDtVx (x : Nibble) : MatchMask.Statement (.ldDtVx x) :=
  (wordXNN_mask ..).trans rfl

theorem MatchMask.ldStVx (x : Nibble) : MatchMask.Statement (.ldStVx x) :=
  (wordXNN_mask ..).trans rfl

theorem MatchMask.addI (x : Nibble) : MatchMask.Statement (.addI x) :=
  (wordXNN_mask ..).trans rfl

theorem MatchMask.ldF (x : Nibble) : MatchMask.Statement (.ldF x) :=
  (wordXNN_mask ..).trans rfl

theorem MatchMask.ldB (x : Nibble) : MatchMask.Statement (.ldB x) :=
  (wordXNN_mask ..).trans rfl

theorem MatchMask.storeRegs (x : Nibble) : MatchMask.Statement (.storeRegs x) :=
  (wordXNN_mask ..).trans rfl

theorem MatchMask.loadRegs (x : Nibble) : MatchMask.Statement (.loadRegs x) :=
  (wordXNN_mask ..).trans rfl

theorem MatchMask.unimpl00CN (n : Nibble) : MatchMask.Statement (.unimpl00CN n) :=
  (wordOfNibbles_mask3 ..).trans rfl

theorem MatchMask.unimpl00FB : MatchMask.Statement .unimpl00FB :=
  rfl

theorem MatchMask.unimpl00FC : MatchMask.Statement .unimpl00FC :=
  rfl

theorem MatchMask.unimpl00FE : MatchMask.Statement .unimpl00FE :=
  rfl

theorem MatchMask.unimpl00FF : MatchMask.Statement .unimpl00FF :=
  rfl

theorem MatchMask.unimpl0NNN (nnn : Addr) : MatchMask.Statement (.unimpl0NNN nnn) :=
  (wordNNN_mask ..).trans rfl

theorem MatchMask.unimplFX75 (x : Nibble) : MatchMask.Statement (.unimplFX75 x) :=
  (wordXNN_mask ..).trans rfl

theorem MatchMask.unimplFX85 (x : Nibble) : MatchMask.Statement (.unimplFX85 x) :=
  (wordXNN_mask ..).trans rfl

end Sys2Proof.Laws
end

