-- ==== Sys2Proof/Laws/Step.lean ====
section
/-! SUPPORT. What one instruction, one step of the core and several steps can do, said once (spec 40_control_flow.md R120, 60_exceptions.md
R220). -/

namespace Sys2Proof.Machine

/-- What an instruction can do to the core's status and outputs: complete with `cont` = 1 and the status as it was, `redraw` as the
instruction is a clear or a draw; halt, for 00FD; or raise a fault, with no other effect (60_exceptions.md R220, R228). -/
theorem exec_outcome {i : Instr} {s t : State} (h : exec i s = .next t) :
    (t.status = s.status ∧ t.cont = true ∧ (t.redraw = true ↔ i = .cls ∨ ∃ x y n, i = .drw x y n) ∧ i ≠ .exit ∧
      t.cfg = s.cfg ∧ t.script = s.script ∧ t.turn = s.turn) ∨
    (i = .exit ∧ t = s.halt) ∨ (∃ c d, t = s.raise c d) := by
  cases i
  all_goals simp only [exec] at h
  case storeRegs x =>
    unfold execStoreRegs at h; simp only [Host.Outcome.next.injEq] at h; subst h
    split
    · exact .inr (.inr ⟨_, _, rfl⟩)
    · left; rw [State.storeAll_eq]; simp
  case loadRegs x =>
    unfold execLoadRegs at h; simp only [Host.Outcome.next.injEq] at h; subst h
    split
    · exact .inr (.inr ⟨_, _, rfl⟩)
    · left; rw [State.loadAll_eq]; simp
  case exit => cases h; exact .inr (.inl ⟨rfl, rfl⟩)
  case ret =>
    unfold execRet at h; simp only [Host.Outcome.next.injEq] at h; subst h
    split
    · rename_i a s1 hp; obtain ⟨_, _, rfl⟩ := State.pop_eq_some.mp hp; left; simp
    · exact .inr (.inr ⟨_, _, rfl⟩)
  case call n =>
    unfold execCall at h; simp only [Host.Outcome.next.injEq] at h; subst h
    split
    · rename_i a hp; obtain ⟨_, rfl⟩ := State.push_eq_some.mp hp; left; simp
    · exact .inr (.inr ⟨_, _, rfl⟩)
  case jpV0 n =>
    unfold execJpV0 at h; simp only [Host.Outcome.next.injEq] at h; subst h
    split
    · exact .inr (.inr ⟨_, _, rfl⟩)
    · left; simp
  case skp x =>
    unfold execSkp at h; simp only [Host.Outcome.next.injEq] at h; subst h
    split
    · left; simp
    · exact .inr (.inr ⟨_, _, rfl⟩)
  case sknp x =>
    unfold execSknp at h; simp only [Host.Outcome.next.injEq] at h; subst h
    split
    · left; simp
    · exact .inr (.inr ⟨_, _, rfl⟩)
  case ldB x =>
    unfold execLdB at h; simp only [Host.Outcome.next.injEq] at h; subst h
    split
    · exact .inr (.inr ⟨_, _, rfl⟩)
    · left; refine ⟨rfl, rfl, ?_, by simp, rfl, rfl, rfl⟩; simp
  case drw x y n =>
    unfold execDrw at h; simp only [Host.Outcome.next.injEq] at h; subst h
    split
    · exact .inr (.inr ⟨_, _, rfl⟩)
    · left; refine ⟨rfl, rfl, ?_, by simp, rfl, rfl, rfl⟩; simp
  case ldVxK x =>
    unfold execLdVxK at h; simp only [Host.Outcome.next.injEq] at h; subst h
    left; refine ⟨rfl, rfl, ?_, by simp, rfl, rfl, rfl⟩; simp
  all_goals
    cases h
    first
    | exact .inr (.inr ⟨_, _, rfl⟩)
    | (left; refine ⟨rfl, rfl, ?_, by simp, rfl, rfl, rfl⟩; simp)

/-- What a step of a running core does: the fetch faults, the word is unknown, or the decoded instruction is executed (40_control_flow.md
R120, R131; 60_exceptions.md R229). -/
theorem State.runningStep_cases {s t : State} (h : s.runningStep = .next t) :
    (s.fetch = none ∧ t = s.raise .pcOutOfRange s.pc.toNat) ∨
    (∃ op, s.fetch = some op ∧ decodeWord op = none ∧ t = s.raise .unknownOpcode op.toNat) ∨
    (∃ op i, s.fetch = some op ∧ decodeWord op = some i ∧ exec i s = .next t) := by
  unfold State.runningStep at h
  split at h
  · rename_i hf; cases h; exact .inl ⟨hf, rfl⟩
  · rename_i op hf
    split at h
    · rename_i hd; cases h; exact .inr (.inl ⟨op, hf, hd, rfl⟩)
    · rename_i i hd; exact .inr (.inr ⟨op, i, hf, hd, h⟩)

/-- What a step request does where the status is Running, and where it is not. -/
theorem State.coreStep_running {s : State} (h : s.status = .running) : s.coreStep = s.runningStep := by
  simp only [State.coreStep, h]

theorem State.coreStep_ended {s : State} (h : s.ended = true) : s.coreStep = .next s.idle := by
  unfold State.coreStep
  split
  · rename_i hs; simp [State.ended, hs] at h
  · rfl
  · rfl

/-- A step is the core's step after the host's moves, and the host's turn over. -/
theorem step_eq_next {s t : State} : step s = .next t ↔ ∃ u, s.hostMoves.coreStep = .next u ∧ t = u.endTurn := by
  unfold step State.cycle
  cases s.hostMoves.coreStep <;> simp [eq_comm]

/-- `k + 1` steps are one step and `k` more. -/
theorem core_run_succ {k : Nat} {s t : State} (h : step s = .next t) : core.run (k + 1) s = core.run k t := by
  have hs : core.step s = .next t := h
  simp only [Host.Core.run, hs]

end Sys2Proof.Machine
end

