-- ==== Sys2Proof/Tests/Slice0.lean ====
section
/-! SUPPORT. The model's own tests. Expected results are the spec's: the worked examples and derived vectors of 95_test_vectors.md (W1 to
W8, F1 to F29, S1 to S20, A1 to A46, M1 to M35, T1 to T10, H1 to H5, D1 to D19), whose number each test names; and for decoding, words
written out from 30_encoding.md R97 and R98. The last part shows for every statement with hypotheses a state that meets them. -/

namespace Sys2Proof.Tests

open Sys2Proof Sys2Proof.Machine

/-! ### Well-formed terms (30_encoding.md R96) -/

theorem test_wellFormed_refuses_row_00E0 : (Instr.unimpl0NNN 0x0E0#12).wellFormed = false := by decide
theorem test_wellFormed_refuses_row_00EE : (Instr.unimpl0NNN 0x0EE#12).wellFormed = false := by decide
theorem test_wellFormed_refuses_row_00FD : (Instr.unimpl0NNN 0x0FD#12).wellFormed = false := by decide
theorem test_wellFormed_refuses_rows_00FB_to_00FF :
    [0x0FB#12, 0x0FC#12, 0x0FE#12, 0x0FF#12].all (fun n => !(Instr.unimpl0NNN n).wellFormed) = true := by decide
theorem test_wellFormed_refuses_row_00CN :
    [0x0C0#12, 0x0C3#12, 0x0CF#12].all (fun n => !(Instr.unimpl0NNN n).wellFormed) = true := by decide
theorem test_wellFormed_takes_neighbours :
    [0x000#12, 0x0BF#12, 0x0D0#12, 0x0E1#12, 0x0EF#12, 0x1C3#12, 0x1E0#12, 0xFFF#12].all
      (fun n => (Instr.unimpl0NNN n).wellFormed) = true := by decide

/-! ### Decoding of words written out from the tables of R97 and R98, and the encoder's word -/

/-- The word decodes to the instruction, the encoder gives the word back, and the table's numbering of bits reads the same. -/
def wordIs (w : Nat) (i : Instr) : Bool :=
  decodeWord (BitVec.ofNat 16 w) == some i && encode i == BitVec.ofNat 16 w && decodeTableWord 16 w == some i

theorem test_decode_flow :
    (wordIs 0b0000000011100000 (.cls) &&
      wordIs 0b0000000011101110 (.ret) &&
      wordIs 0b0000000011111101 (.exit) &&
      wordIs 0b0001001000110100 (.jp 0x234#12) &&
      wordIs 0b0010001100000000 (.call 0x300#12)) = true := by decide

theorem test_decode_immediate :
    (wordIs 0b0011001100101010 (.seImm 0x3#4 0x2A#8) &&
      wordIs 0b0100001100101010 (.sneImm 0x3#4 0x2A#8) &&
      wordIs 0b0101000100100000 (.seReg 0x1#4 0x2#4) &&
      wordIs 0b0110101001111111 (.ldImm 0xA#4 0x7F#8) &&
      wordIs 0b0111000100000010 (.addImm 0x1#4 0x02#8)) = true := by decide

theorem test_decode_logic :
    (wordIs 0b1000000100100000 (.ldReg 0x1#4 0x2#4) &&
      wordIs 0b1000000100100001 (.orReg 0x1#4 0x2#4) &&
      wordIs 0b1000000100100010 (.andReg 0x1#4 0x2#4) &&
      wordIs 0b1000000100100011 (.xorReg 0x1#4 0x2#4) &&
      wordIs 0b1000000100100100 (.addReg 0x1#4 0x2#4)) = true := by decide

theorem test_decode_subtract_shift :
    (wordIs 0b1000000100100101 (.subReg 0x1#4 0x2#4) &&
      wordIs 0b1000000100100110 (.shr 0x1#4 0x2#4) &&
      wordIs 0b1000000100100111 (.subnReg 0x1#4 0x2#4) &&
      wordIs 0b1000000100101110 (.shl 0x1#4 0x2#4) &&
      wordIs 0b1001000100100000 (.sneReg 0x1#4 0x2#4)) = true := by decide

theorem test_decode_index_random_draw_keys :
    (wordIs 0b1010001011110000 (.ldI 0x2F0#12) &&
      wordIs 0b1011001100000000 (.jpV0 0x300#12) &&
      wordIs 0b1100001100001111 (.rnd 0x3#4 0x0F#8) &&
      wordIs 0b1101000100100101 (.drw 0x1#4 0x2#4 0x5#4) &&
      wordIs 0b1110010010011110 (.skp 0x4#4) &&
      wordIs 0b1110010010100001 (.sknp 0x4#4)) = true := by decide

theorem test_decode_timers_index :
    (wordIs 0b1111001100000111 (.ldVxDt 0x3#4) &&
      wordIs 0b1111010100001010 (.ldVxK 0x5#4) &&
      wordIs 0b1111001100010101 (.ldDtVx 0x3#4) &&
      wordIs 0b1111001100011000 (.ldStVx 0x3#4) &&
      wordIs 0b1111001000011110 (.addI 0x2#4) &&
      wordIs 0b1111010100101001 (.ldF 0x5#4)) = true := by decide

theorem test_decode_bulk :
    (wordIs 0b1111000000110011 (.ldB 0x0#4) &&
      wordIs 0b1111000101010101 (.storeRegs 0x1#4) &&
      wordIs 0b1111010001100101 (.loadRegs 0x4#4)) = true := by decide

theorem test_decode_unimplemented :
    (wordIs 0b0000000011000011 (.unimpl00CN 0x3#4) &&
      wordIs 0b0000000011111011 (.unimpl00FB) &&
      wordIs 0b0000000011111100 (.unimpl00FC) &&
      wordIs 0b0000000011111110 (.unimpl00FE) &&
      wordIs 0b0000000011111111 (.unimpl00FF) &&
      wordIs 0b0000000100100011 (.unimpl0NNN 0x123#12) &&
      wordIs 0b1111001101110101 (.unimplFX75 0x3#4) &&
      wordIs 0b1111001110000101 (.unimplFX85 0x3#4)) = true := by decide

theorem test_decode_refuses_unknown_words :
    [0x5121#16, 0x8AB8#16, 0x8ABF#16, 0x9AB1#16, 0xE19F#16, 0xF1FF#16, 0xF100#16].all (fun op => decodeWord op == none) = true := by
  decide

theorem test_decode_names_what_it_refuses :
    decode [0x51#8, 0x21#8, 0x00#8] = .unknownOpcode 0x5121#16 ∧ decode [0x51#8] = .truncated ∧
      decode (encodeBytes (.jp 0x234#12) ++ [0x99#8]) = .instr (.jp 0x234#12) [0x99#8] := by decide

/-! ### One step

`at_ w f` is the reset state as `f` changes it, with the word `w` where the next step fetches; the host supplies no key, no event and
the random byte 0, unless `f` says otherwise. -/

/-- The reset state with the host's next turn decided: no event, no key, random byte 0. -/
def quiet : State := { State.reset with script := [⟨[], none, 0#8⟩] }

def at_ (w : Nat) (f : State → State) : State := (f quiet).withFetchWord 16 w

/-- What a step leaves, tested. -/
def after (s : State) (p : State → Bool) : Bool :=
  match step s with
  | .next t => p t
  | .fault _ => false
  | .refused _ => false

/-- What an instruction leaves, tested. -/
def afterExec (i : Instr) (s : State) (p : State → Bool) : Bool :=
  match exec i s with
  | .next t => p t
  | .fault _ => false
  | .refused _ => false

theorem exists_of_after {s : State} {p : State → Bool} (h : after s p = true) : ∃ t, step s = .next t ∧ p t = true := by
  unfold after at h
  split at h
  · exact ⟨_, by assumption, h⟩
  · exact absurd h (by simp)
  · exact absurd h (by simp)

theorem exists_of_afterExec {i : Instr} {s : State} {p : State → Bool} (h : afterExec i s p = true) :
    ∃ t, exec i s = .next t ∧ p t = true := by
  unfold afterExec at h
  split at h
  · exact ⟨_, by assumption, h⟩
  · exact absurd h (by simp)
  · exact absurd h (by simp)

/-- The step completed: pc, `cont` = 1, `redraw` as said, still Running. -/
def ok (pc : Word) (redraw : Bool) (t : State) : Bool := t.pc == pc && t.cont && t.redraw == redraw && t.status == .running

/-- The step raised this fault at 0x0200. -/
def bad (c : Cause) (detail : Nat) (t : State) : Bool :=
  t.status == .faulted c 0x200#16 (BitVec.ofNat 20 detail) && t.pc == 0x200#16 && !t.cont && !t.redraw

/-- The pixels that are on. -/
def lit (t : State) (cells : List (Nat × Nat)) : Bool := t.fb == (cells.foldl (fun fb c => setPixel fb (cellIndex c.1 c.2) true) 0)

/-- A state change: the pixels that are on. -/
def withPixels (cells : List (Nat × Nat)) (s : State) : State :=
  { s with fb := cells.foldl (fun fb c => setPixel fb (cellIndex c.1 c.2) true) 0 }

/-- A state change: I. -/
def withI (i : Word) (s : State) : State := { s with I := i }

/-- A state change: the first stack cell and sp = 1. -/
def withEntry (a : Word) (s : State) : State := { s with stack := s.stack.set 0 a, sp := 1 }

/-- A state change: bytes from an address upward. -/
def withBytes (a : Nat) (bs : List Byte) (s : State) : State := { s with mem := Memory.writeAll s.cfg s.mem a bs }

/-- A state change: the parameters. -/
def withCfg (mask : Bool) (p : LowWritePolicy) (s : State) : State :=
  { s with cfg := { s.cfg with shlMask8 := mask, lowWritePolicy := p } }

/-- A state change: the host's next turn. -/
def withTurn (evs : List HostEvent) (k : Option Nibble) (rnd : Byte) (s : State) : State := { s with script := [⟨evs, k, rnd⟩] }

/-! #### Control flow -/

/-- F1 -/
theorem test_jp_F1 : after (at_ 0x1234 fun s => s)
    (fun t => ok 0x234#16 false t) = true := by decide

/-- F8: the 48th pending call -/
theorem test_call_F8 : after (at_ 0x2300 fun s => { s with sp := 47 })
    (fun t => t.sp.val == 48 && t.stack[47] == 0x200#16 && ok 0x300#16 false t) = true := by decide

/-- F9 -/
theorem test_call_F9 : after (at_ 0x2300 fun s => { s with sp := 48 })
    (fun t => bad .stackOverflow 48 t && t.sp.val == 48) = true := by decide

/-- F10 -/
theorem test_ret_F10 : after (at_ 0x00EE fun s => (withEntry 0x204#16 s))
    (fun t => t.sp.val == 0 && t.stack[0] == 0x204#16 && ok 0x206#16 false t) = true := by decide

/-- F11 at pc = 0x0200 -/
theorem test_ret_F11 : after (at_ 0x00EE fun s => s)
    (fun t => bad .stackUnderflow 0 t) = true := by decide

/-- F13: not reduced modulo 4096 -/
theorem test_jpV0_F13 : after (at_ 0xBFFF fun s => (s.setV 0x0#4 0x1#16))
    (fun t => ok 0x1000#16 false t) = true := by decide

/-- F14 -/
theorem test_jpV0_F14 : after (at_ 0xBFFF fun s => (s.setV 0x0#4 0xF001#16))
    (fun t => bad .pcOutOfRange 0x10000 t) = true := by decide

/-- F16 at pc = 0x0200 -/
theorem test_exit_F16 : after (at_ 0x00FD fun s => s)
    (fun t => t.status == .halted && t.pc == 0x202#16 && !t.cont && !t.redraw) = true := by decide

/-- F4, with pc = 4095. -/
theorem test_fetch_F4 : after { quiet with pc := 0xFFF#16 }
    (fun t => t.status == .faulted .pcOutOfRange 0xFFF#16 0xFFF#20 && t.pc == 0xFFF#16 && !t.cont) = true := by decide

/-- F5: 4094 is the last address that can be fetched. -/
theorem test_fetch_F5 : after (at_ 0x6A01 fun s => { s with pc := 0xFFE#16 })
    (fun t => t.reg 0xA#4 == 1#16 && ok 0x1000#16 false t) = true := by decide

/-- F6: an odd pc is legal. -/
theorem test_fetch_F6 : after (at_ 0x6A01 fun s => { s with pc := 0x201#16 }) (fun t => ok 0x203#16 false t) = true := by decide

/-- F17 -/
theorem test_unimplemented_F17 : after (at_ 0x0000 fun s => s)
    (fun t => bad .unimplementedOpcode 0x0000 t) = true := by decide

/-- F18 -/
theorem test_unimplemented_F18 : after (at_ 0x00FE fun s => s)
    (fun t => bad .unimplementedOpcode 0x00FE t) = true := by decide

/-- F19 -/
theorem test_unimplemented_F19 : after (at_ 0x00C3 fun s => s)
    (fun t => bad .unimplementedOpcode 0x00C3 t) = true := by decide

/-- F20 -/
theorem test_unimplemented_F20 : after (at_ 0x0123 fun s => s)
    (fun t => bad .unimplementedOpcode 0x0123 t) = true := by decide

/-- F21 -/
theorem test_unimplemented_F21 : after (at_ 0xF375 fun s => s)
    (fun t => bad .unimplementedOpcode 0xF375 t) = true := by decide

/-- F22 -/
theorem test_unimplemented_F22 : after (at_ 0xF385 fun s => s)
    (fun t => bad .unimplementedOpcode 0xF385 t) = true := by decide

/-- R129 -/
theorem test_unimplemented_00FB : after (at_ 0x00FB fun s => s)
    (fun t => bad .unimplementedOpcode 0xFB t) = true := by decide

/-- R129 -/
theorem test_unimplemented_00FC : after (at_ 0x00FC fun s => s)
    (fun t => bad .unimplementedOpcode 0xFC t) = true := by decide

/-- R129 -/
theorem test_unimplemented_00FF : after (at_ 0x00FF fun s => s)
    (fun t => bad .unimplementedOpcode 0xFF t) = true := by decide

/-- F23 -/
theorem test_unknown_F23 : after (at_ 0x5121 fun s => s)
    (fun t => bad .unknownOpcode 0x5121 t) = true := by decide

/-- F28 -/
theorem test_unknown_F28 : after (at_ 0xF1FF fun s => s)
    (fun t => bad .unknownOpcode 0xF1FF t) = true := by decide

/-! #### Skips -/

/-- S1 -/
theorem test_seImm_S1 : after (at_ 0x332A fun s => (s.setV 0x3#4 0x2A#16))
    (fun t => ok 0x204#16 false t) = true := by decide

/-- S3: whole cells -/
theorem test_seImm_S3 : after (at_ 0x3305 fun s => (s.setV 0x3#4 0x105#16))
    (fun t => ok 0x202#16 false t) = true := by decide

/-- S5 -/
theorem test_sneImm_S5 : after (at_ 0x432A fun s => (s.setV 0x3#4 0x2A#16))
    (fun t => ok 0x202#16 false t) = true := by decide

/-- S7 -/
theorem test_sneImm_S7 : after (at_ 0x4305 fun s => (s.setV 0x3#4 0x105#16))
    (fun t => ok 0x204#16 false t) = true := by decide

/-- S8 -/
theorem test_seReg_S8 : after (at_ 0x5120 fun s => ((s.setV 0x1#4 0x7#16).setV 0x2#4 0x7#16))
    (fun t => ok 0x204#16 false t) = true := by decide

/-- S9 -/
theorem test_seReg_S9 : after (at_ 0x5120 fun s => ((s.setV 0x1#4 0x7#16).setV 0x2#4 0x8#16))
    (fun t => ok 0x202#16 false t) = true := by decide

/-- S12 -/
theorem test_sneReg_S12 : after (at_ 0x9120 fun s => ((s.setV 0x1#4 0x7#16).setV 0x2#4 0x7#16))
    (fun t => ok 0x202#16 false t) = true := by decide

/-- S13 -/
theorem test_sneReg_S13 : after (at_ 0x9120 fun s => ((s.setV 0x1#4 0x105#16).setV 0x2#4 0x5#16))
    (fun t => ok 0x204#16 false t) = true := by decide

/-- S16: `current_key` is not consulted -/
theorem test_skp_S16 : after (at_ 0xE49E fun s => withTurn [] (some 0xA#4) 0#8 ((s.setV 0x4#4 0xA#16).keyWrite 0xB#4 true))
    (fun t => ok 0x202#16 false t) = true := by decide

/-- S14 -/
theorem test_skp_S14 : after (at_ 0xE49E fun s => (s.setV 0x4#4 0xA#16).keyWrite 0xA#4 true)
    (fun t => ok 0x204#16 false t) = true := by decide

/-- S19 -/
theorem test_sknp_S19 : after (at_ 0xE4A1 fun s => (s.setV 0x4#4 0xA#16).keyWrite 0xA#4 true)
    (fun t => ok 0x202#16 false t) = true := by decide

/-- S20 -/
theorem test_sknp_S20 : after (at_ 0xE4A1 fun s => (s.setV 0x4#4 0xFF#16))
    (fun t => bad .keyIndexOutOfRange 255 t) = true := by decide

/-! #### Register load, arithmetic, logic, shift, random -/

/-- A1 -/
theorem test_ldImm_A1 : after (at_ 0x6A7F fun s => (s.setV 0xA#4 0x1234#16))
    (fun t => t.reg 0xA#4 == 0x7F#16 && ok 0x202#16 false t) = true := by decide

/-- A3 -/
theorem test_addImm_A3 : after (at_ 0x7102 fun s => ((s.setV 0x1#4 0xFF#16).setV 0xF#4 0x7#16))
    (fun t => t.reg 0x1#4 == 0x1#16 && t.reg 0xF#4 == 0x7#16 && ok 0x202#16 false t) = true := by decide

/-- A4 -/
theorem test_addImm_A4 : after (at_ 0x7100 fun s => (s.setV 0x1#4 0x1FF#16))
    (fun t => t.reg 0x1#4 == 0xFF#16 && ok 0x202#16 false t) = true := by decide

/-- A7 -/
theorem test_ldReg_A7 : after (at_ 0x8120 fun s => ((s.setV 0x1#4 0x1#16).setV 0x2#4 0x8000#16))
    (fun t => t.reg 0x1#4 == 0x8000#16 && ok 0x202#16 false t) = true := by decide

/-- A8 -/
theorem test_orReg_A8 : after (at_ 0x8121 fun s => (((s.setV 0x1#4 0xC#16).setV 0x2#4 0xA#16).setV 0xF#4 0x1#16))
    (fun t => t.reg 0x1#4 == 0xE#16 && t.reg 0xF#4 == 0x1#16 && ok 0x202#16 false t) = true := by decide

/-- A10 -/
theorem test_andReg_A10 : after (at_ 0x8122 fun s => ((s.setV 0x1#4 0x1FF#16).setV 0x2#4 0xF0#16))
    (fun t => t.reg 0x1#4 == 0xF0#16 && ok 0x202#16 false t) = true := by decide

/-- A11 -/
theorem test_xorReg_A11 : after (at_ 0x8123 fun s => ((s.setV 0x1#4 0xC#16).setV 0x2#4 0xA#16))
    (fun t => t.reg 0x1#4 == 0x6#16 && ok 0x202#16 false t) = true := by decide

/-- A12 -/
theorem test_xorReg_A12 : after (at_ 0x8113 fun s => (s.setV 0x1#4 0x5A#16))
    (fun t => t.reg 0x1#4 == 0x0#16 && ok 0x202#16 false t) = true := by decide

/-- A13, W4 -/
theorem test_addReg_A13 : after (at_ 0x8124 fun s => ((s.setV 0x1#4 0xFA#16).setV 0x2#4 0xA#16))
    (fun t => t.reg 0x1#4 == 0x4#16 && t.reg 0xF#4 == 0x1#16 && ok 0x202#16 false t) = true := by decide

/-- A18 -/
theorem test_addReg_A18 : after (at_ 0x8F14 fun s => ((s.setV 0xF#4 0xF0#16).setV 0x1#4 0x20#16))
    (fun t => t.reg 0xF#4 == 0x1#16 && ok 0x202#16 false t) = true := by decide

/-- A21: the absolute value -/
theorem test_subReg_A21 : after (at_ 0x8125 fun s => (((s.setV 0x1#4 0x5#16).setV 0x2#4 0x7#16).setV 0xF#4 0x1#16))
    (fun t => t.reg 0x1#4 == 0x2#16 && t.reg 0xF#4 == 0x0#16 && ok 0x202#16 false t) = true := by decide

/-- A24 -/
theorem test_subReg_A24 : after (at_ 0x8F15 fun s => ((s.setV 0xF#4 0x3#16).setV 0x1#4 0xA#16))
    (fun t => t.reg 0xF#4 == 0x7#16 && ok 0x202#16 false t) = true := by decide

/-- A28 -/
theorem test_shr_A28 : after (at_ 0x8106 fun s => (s.setV 0x1#4 0x101#16))
    (fun t => t.reg 0x1#4 == 0x80#16 && t.reg 0xF#4 == 0x1#16 && ok 0x202#16 false t) = true := by decide

/-- A29 -/
theorem test_shr_A29 : after (at_ 0x8F06 fun s => (s.setV 0xF#4 0x3#16))
    (fun t => t.reg 0xF#4 == 0x0#16 && ok 0x202#16 false t) = true := by decide

/-- A30 -/
theorem test_subnReg_A30 : after (at_ 0x8127 fun s => ((s.setV 0x1#4 0x5#16).setV 0x2#4 0x7#16))
    (fun t => t.reg 0x1#4 == 0x2#16 && t.reg 0xF#4 == 0x1#16 && ok 0x202#16 false t) = true := by decide

/-- A31 -/
theorem test_subnReg_A31 : after (at_ 0x8127 fun s => (((s.setV 0x1#4 0x7#16).setV 0x2#4 0x5#16).setV 0xF#4 0x1#16))
    (fun t => t.reg 0x1#4 == 0x2#16 && t.reg 0xF#4 == 0x0#16 && ok 0x202#16 false t) = true := by decide

/-- A36 -/
theorem test_shl_A36 : after (at_ 0x810E fun s => (withCfg true .fault (s.setV 0x1#4 0x81#16)))
    (fun t => t.reg 0x1#4 == 0x2#16 && t.reg 0xF#4 == 0x0#16 && ok 0x202#16 false t) = true := by decide

/-- A42 -/
theorem test_shl_A42 : after (at_ 0x8F0E fun s => (s.setV 0xF#4 0x8000#16))
    (fun t => t.reg 0xF#4 == 0x2#16 && ok 0x202#16 false t) = true := by decide

/-- A43 -/
theorem test_rnd_A43 : after (at_ 0xC30F fun s => withTurn [] none 0xB7#8 s)
    (fun t => t.reg 0x3#4 == 0x7#16 && ok 0x202#16 false t) = true := by decide

/-- A45 -/
theorem test_rnd_A45 : after (at_ 0xC300 fun s => withTurn [] none 0xFF#8 (s.setV 0x3#4 0x12#16))
    (fun t => t.reg 0x3#4 == 0x0#16 && ok 0x202#16 false t) = true := by decide

/-! #### Address register and memory -/

/-- M2 -/
theorem test_ldI_M2 : after (at_ 0xAFFF fun s => (withI 0x123#16 s))
    (fun t => t.I == 0xFFF#16 && ok 0x202#16 false t) = true := by decide

/-- M4: 0xFFF is no overflow -/
theorem test_addI_M4 : after (at_ 0xF21E fun s => ((withI 0xFFE#16 s).setV 0x2#4 0x1#16))
    (fun t => t.I == 0xFFF#16 && t.reg 0xF#4 == 0x0#16 && ok 0x202#16 false t) = true := by decide

/-- M8 -/
theorem test_addI_M8 : after (at_ 0xFF1E fun s => ((withI 0xFFF#16 s).setV 0xF#4 0x1#16))
    (fun t => t.I == 0#16 && t.reg 0xF#4 == 0x1#16 && ok 0x202#16 false t) = true := by decide

/-- M12 -/
theorem test_ldF_M12 : after (at_ 0xF529 fun s => (s.setV 0x5#4 0x10#16))
    (fun t => t.I == 0x50#16 && ok 0x202#16 false t) = true := by decide

/-- M13 -/
theorem test_ldF_M13 : after (at_ 0xF529 fun s => (s.setV 0x5#4 0x334#16))
    (fun t => t.I == 0x4#16 && ok 0x202#16 false t) = true := by decide

/-- M14, W5 -/
theorem test_ldB_M14 : after (at_ 0xF033 fun s => (withI 0x300#16 (s.setV 0x0#4 0xFF#16)))
    (fun t => t.load 0x300 == 0x2#8 && t.load 0x301 == 0x5#8 && t.load 0x302 == 0x5#8 && ok 0x202#16 false t) = true := by decide

/-- M23 -/
theorem test_ldB_M23 : after (at_ 0xF033 fun s => (withCfg false .ignore (withI 0x1FF#16 (s.setV 0x0#4 0x7B#16))))
    (fun t => t.load 0x1FF == 0x0#8 && t.load 0x200 == 0x2#8 && t.load 0x201 == 0x3#8 && ok 0x202#16 false t) = true := by decide

/-- M28: no byte is written -/
theorem test_storeRegs_M28 : after (at_ 0xF155 fun s => (withI 0xFFF#16 ((s.setV 0x0#4 0x77#16).setV 0x1#4 0x88#16)))
    (fun t => bad .addressOutOfRange 0x1000 t && t.load 0xFFF == 0x0#8) = true := by decide

/-- M31: the stored byte 00 at 0x0201 -/
theorem test_storeRegs_M31 : after (at_ 0xF155 fun s => (withI 0x200#16 ((s.setV 0x0#4 0x12#16).setV 0x1#4 0x0#16)))
    (fun t => t.load 0x200 == 0x12#8 && t.load 0x201 == 0x0#8 && ok 0x202#16 false t) = true := by decide

/-- M33 -/
theorem test_loadRegs_M33 : after (at_ 0xF465 fun s => ((withI 0x23#16 s).setV 0x0#4 0x1234#16))
    (fun t => t.reg 0x0#4 == 0xF0#16 && t.reg 0x1#4 == 0x10#16 && t.reg 0x2#4 == 0x20#16 && t.reg 0x3#4 == 0x40#16 && t.reg 0x4#4 == 0x40#16 && ok 0x202#16 false t) = true := by decide

/-- M34 -/
theorem test_loadRegs_M34 : after (at_ 0xF165 fun s => (withI 0xFFF#16 s))
    (fun t => bad .addressOutOfRange 0x1000 t) = true := by decide

/-! #### Timers, keys, host events -/

/-- T1 -/
theorem test_ldVxDt_T1 : after (at_ 0xF307 fun s => { s with dt := 0x3C#8 })
    (fun t => t.reg 0x3#4 == 0x3C#16 && ok 0x202#16 false t) = true := by decide

/-- T4 -/
theorem test_ldDtVx_T4 : after (at_ 0xF315 fun s => (s.setV 0x3#4 0x1FF#16))
    (fun t => t.dt == 0xFF#8 && ok 0x202#16 false t) = true := by decide

/-- T5 -/
theorem test_ldStVx_T5 : after (at_ 0xF318 fun s => (s.setV 0x3#4 0x2#16))
    (fun t => t.st == 2#8 && t.soundOn && ok 0x202#16 false t) = true := by decide

/-- T8 at pc = 0x0200 -/
theorem test_ldVxK_T8 : after (at_ 0xF50A fun s => withTurn [] (some 0xB#4) 0#8 (s.setV 0x5#4 0x33#16))
    (fun t => t.reg 0x5#4 == 0xB#16 && ok 0x202#16 false t) = true := by decide

/-- T9 at pc = 0x0200: the latch is not consulted -/
theorem test_ldVxK_T9 : after (at_ 0xF50A fun s => (s.setV 0x5#4 0x33#16).keyWrite 0x3#4 true)
    (fun t => t.reg 0x5#4 == 0x33#16 && ok 0x200#16 false t) = true := by decide

/-- H1, H5: before the step of a halted core -/
theorem test_timerTick_H1 : after (at_ 0x1200 fun s => { s with dt := 3#8, st := 1#8, script := [⟨[.timerTick], none, 0#8⟩] })
    (fun t => t.dt == 2#8 && t.st == 0#8 && !t.soundOn) = true := by decide

/-- H2, H3, H5: the ticks saturate at 0, also on a halted core. -/
theorem test_timerTick_H2 :
    after { quiet with status := .halted, dt := 1#8, st := 5#8, script := [⟨[.timerTick, .timerTick], none, 0#8⟩] }
      (fun t => t.dt == 0#8 && t.st == 3#8 && t.status == .halted && !t.cont) = true := by decide

/-- H4 -/
theorem test_keyWrite_H4 :
    after (at_ 0x1200 fun s => { s with script := [⟨[.keyWrite 0x9#4 true], none, 0#8⟩] })
      (fun t => t.keyDown 0x9#4 && !t.keyDown 0x8#4) = true := by decide

/-! #### Clear and draw -/

/-- D1 -/
theorem test_cls_D1 : after (at_ 0x00E0 fun s => withPixels [(0, 0), (63, 0), (63, 31)] s)
    (fun t => lit t [] && ok 0x202#16 true t) = true := by decide +kernel

/-- D3, W6 -/
theorem test_drw_D3 : after (at_ 0xD121 fun s => ((withI 0x300#16 (withBytes 0x300 [0xFF#8] s)).setV 0x1#4 0x3C#16))
    (fun t => lit t [(60, 0), (61, 0), (62, 0), (63, 0)] && t.reg 0xF#4 == 0x0#16 && ok 0x202#16 true t) = true := by decide +kernel

/-- D10 -/
theorem test_drw_D10 : after (at_ 0xD121 fun s => (withI 0x300#16 (withBytes 0x300 [0xC0#8] (withPixels [(1, 0)] s))))
    (fun t => lit t [(0, 0)] && t.reg 0xF#4 == 0x1#16 && ok 0x202#16 true t) = true := by decide +kernel

/-- D16: rows 2 to 4 are clipped and not fetched -/
theorem test_drw_D16 : after (at_ 0xD125 fun s => ((withI 0xFFE#16 (withBytes 0xFFE [0x80#8, 0x80#8] s)).setV 0x2#4 0x1E#16))
    (fun t => lit t [(0, 30), (0, 31)] && ok 0x202#16 true t) = true := by decide +kernel

/-- D17 -/
theorem test_drw_D17 : after (at_ 0xD125 fun s => ((withI 0xFFE#16 (withBytes 0xFFE [0x80#8, 0x80#8] s)).setV 0x2#4 0x1D#16))
    (fun t => bad .addressOutOfRange 0x1000 t && lit t []) = true := by decide +kernel

/-- D18: VF named as X reads 0 -/
theorem test_drw_D18 : after (at_ 0xDF11 fun s => (((withI 0x300#16 (withBytes 0x300 [0x80#8] s)).setV 0xF#4 0x5#16).setV 0x1#4 0x3#16))
    (fun t => lit t [(0, 3)] && t.reg 0xF#4 == 0x0#16 && ok 0x202#16 true t) = true := by decide +kernel

/-! ### Reset -/

/-- `State.reset` is the reset with the empty image at the spec's default parameters (10_state.md R53). -/
theorem test_reset_is_empty_reset : State.resetWith defaultConfig [] = State.reset := rfl

/-- 20_memory.md R63: the glyph of 7 at 35; zeros from 80; 00 00 at 512. -/
theorem test_reset_memory :
    (List.range 5).map (fun j => State.reset.load (35 + j)) = [0xF0#8, 0x10#8, 0x20#8, 0x40#8, 0x40#8] ∧
      State.reset.load 80 = 0#8 ∧ State.reset.load 512 = 0#8 ∧ State.reset.load 4095 = 0#8 := by decide

/-- 70_reset_and_hazards.md R264: with the empty image the first step faults on the word 0000. -/
theorem test_reset_first_step : after quiet (fun t => bad .unimplementedOpcode 0 t) = true := by decide

/-- P1, the image in memory: its first byte at 0x0200, its last at 0x020D. -/
theorem test_reset_program :
    let s := State.resetWith defaultConfig [0x60#8, 0x00#8, 0x61#8, 0x05#8, 0x80#8, 0x14#8, 0x71#8, 0xFF#8, 0x31#8, 0x00#8, 0x12#8, 0x04#8, 0x00#8, 0xFD#8]
    s.load 0x200 = 0x60#8 ∧ s.load 0x20D = 0xFD#8 ∧ s.load 0x20E = 0#8 ∧ s.fetch = some 0x6000#16 := by decide

/-- 70_reset_and_hazards.md R263: the first length that does not load. -/
theorem test_reset_too_long :
    (State.resetWith defaultConfig (List.replicate 3585 0x60#8)).status = .faulted .loadError 0x200#16 3585#20 := by
  simp only [State.resetWith, List.length_replicate]
  rfl

/-! ### Witnesses: states and operands that meet the hypotheses of the statements

One theorem for each statement with hypotheses; where a statement has several clauses, each clause at a boundary of its range. -/

/-- A state at the limits of the invariant: I = 0xFFF, 48 calls pending with an entry at 4094, a V cell of 255 under the mask, a stored
byte, and the word `w` at 0x0200. -/
def edge (w : Nat) : State :=
  at_ w fun s => withCfg true .ignore { withI 0xFFF#16 (withBytes 0x300 [0x80#8] (s.setV 0x1#4 0xFF#16)) with
    stack := Vector.replicate 48 0xFFE#16, sp := 48, dt := 1#8, st := 1#8 }

theorem witness_DecodeAfterEncode : (Instr.unimpl0NNN 0x0E1#12).wellFormed = true ∧ (Instr.drw 0xF#4 0xF#4 0xF#4).wellFormed = true := by
  decide

theorem witness_EncodeAfterDecode : decodeWord 0xFF85#16 = some (.unimplFX85 0xF#4) := by decide

/-- One word of each line of the table. -/
theorem witness_UnknownWordsAreThoseListed :
    [0x5001#16, 0x8008#16, 0x800F#16, 0x900F#16, 0xE09F#16, 0xF084#16].all (fun op => decodeWord op == none) = true := by decide

theorem witness_StepRunsDecodedInstruction :
    let s := at_ 0x6A01 fun s => { s with pc := 0xFFE#16 }
    s.status = .running ∧ s.pc.toNat ≤ 4094 ∧
      decodeWord (s.load s.pc.toNat ++ s.load (s.pc.toNat + 1)) = some (.ldImm 0xA#4 0x01#8) := by decide

theorem witness_TimerTickDecrementsBoth :
    let s := { quiet with dt := 1#8, st := 0#8 }
    let t := { quiet with dt := 0#8, st := 255#8 }
    0 < s.dt.toNat ∧ s.st.toNat = 0 ∧ t.dt.toNat = 0 ∧ 0 < t.st.toNat := by decide

theorem witness_FetchOutOfRangeFaults :
    let s := { quiet with pc := 0xFFF#16 }
    let t := { quiet with pc := 0xFFFF#16 }
    (s.status = .running ∧ 4094 < s.pc.toNat) ∧ (t.status = .running ∧ 4094 < t.pc.toNat) := by decide

theorem witness_UnknownWordFaults :
    let s := at_ 0xFFFF fun s => { s with pc := 0xFFE#16 }
    s.status = .running ∧ s.fetch = some 0xFFFF#16 ∧ decodeWord 0xFFFF#16 = none := by decide

theorem witness_EndedRunStaysEnded :
    State.ended { quiet with status := .halted } = true ∧
      State.ended { quiet with status := .faulted .stackOverflow 0x200#16 48#20 } = true := by decide

/-- A step of each of the three outcomes. -/
theorem witness_StepHasOneOfThreeOutcomes :
    ((at_ 0x00E0 id).status = .running ∧ (at_ 0x00FD id).status = .running ∧ (at_ 0x00EE id).status = .running) ∧
    (∃ t, step (at_ 0x00E0 id) = .next t ∧ (t.status == .running && t.cont) = true) ∧
    (∃ t, step (at_ 0x00FD id) = .next t ∧ (t.status == .halted && !t.cont) = true) ∧
    (∃ t, step (at_ 0x00EE id) = .next t ∧ (t.status == .faulted .stackUnderflow 0x200#16 0#20 && !t.cont) = true) :=
  ⟨by decide, exists_of_after (by decide), exists_of_after (by decide), exists_of_after (by decide)⟩

theorem witness_FaultsArePrecise :
    (at_ 0x2300 fun s => { s with sp := 48 }).status = .running ∧
      ∃ t, step (at_ 0x2300 fun s => { s with sp := 48 }) = .next t ∧ (t.status == .faulted .stackOverflow 0x200#16 48#20) = true :=
  ⟨by decide, exists_of_after (by decide)⟩

/-- A step with `redraw` = 1, one with `cont` = 1 and `redraw` = 0, a halt, and a draw that faults. -/
theorem witness_OutputsOfEachStep :
    ((at_ 0xD121 id).status = .running ∧ (edge 0xD002).status = .running) ∧
    (∃ t, step (at_ 0xD121 id) = .next t ∧ (t.cont && t.redraw) = true) ∧
    (∃ t, step (at_ 0x1200 id) = .next t ∧ (t.cont && !t.redraw) = true) ∧
    (∃ t, step (at_ 0x00FD id) = .next t ∧ (!t.cont && !t.redraw && !t.faultValid) = true) ∧
    (∃ t, step (edge 0xD002) = .next t ∧ (!t.cont && !t.redraw && t.faultValid) = true) :=
  ⟨by decide, exists_of_after (by decide), exists_of_after (by decide), exists_of_after (by decide), exists_of_after (by decide)⟩

theorem edge_stackOk (w : Nat) (h : (edge w).stack = Vector.replicate 48 0xFFE#16) : (edge w).stackOk := by
  intro k _
  rw [h]
  simp

/-- A return to 4096, the highest the stack can hold, a skip at 4094, and a jump that faults. -/
theorem witness_PcAfterEachInstruction :
    ((edge 0x00EE).status = .running ∧ (edge 0x00EE).pc.toNat ≤ 4094 ∧ (edge 0x00EE).stackOk ∧
      ∃ t, exec .ret (edge 0x00EE) = .next t ∧ (t.pc == 0x1000#16) = true) ∧
    ((∃ t, exec (.seReg 0x3#4 0x3#4) { edge 0x5330 with pc := 0xFFE#16 } = .next t ∧ (t.pc == 0x1002#16) = true) ∧
      State.stackOk { edge 0x5330 with pc := 0xFFE#16 }) ∧
    (∃ t, exec (.call 0x300#12) (edge 0x2300) = .next t ∧ (t.faultValid && t.pc == 0x200#16) = true) :=
  ⟨⟨by decide, by decide, edge_stackOk _ (by decide), exists_of_afterExec (by decide)⟩,
    ⟨exists_of_afterExec (by decide), edge_stackOk 0x5330 (by decide)⟩, exists_of_afterExec (by decide)⟩

/-- The invariant holds at its limits, and a shift under the mask completes there. -/
theorem witness_StepKeepsReachableForm :
    (edge 0x810E).Inv ∧ ∃ t, step (edge 0x810E) = .next t ∧ (t.reg 0x1#4 == 0xFE#16 && t.status == .running) = true := by
  refine ⟨⟨by unfold State.memOk; decide, by unfold State.indexOk; decide, edge_stackOk _ (by decide), fun _ => by decide, fun _ => by decide +kernel, ?_⟩,
    exists_of_after (by decide)⟩
  intro c p d h
  have hr : (edge 0x810E).status = .running := by decide
  rw [hr] at h
  exact absurd h (by simp)

theorem witness_OnlyTheseInstructionsWrite :
    (∃ t, exec (.addI 0x1#4) (edge 0) = .next t ∧ (t.I != (edge 0).I) = true) ∧
    (∃ t, exec .ret (edge 0) = .next t ∧ (t.sp != (edge 0).sp) = true) ∧
    (∃ t, exec (.call 0x300#12) quiet = .next t ∧ (t.stack != quiet.stack) = true) ∧
    (∃ t, exec (.ldDtVx 0x1#4) (edge 0) = .next t ∧ (t.dt != (edge 0).dt) = true) ∧
    (∃ t, exec (.ldStVx 0x1#4) (edge 0) = .next t ∧ (t.st != (edge 0).st) = true) ∧
    (∃ t, exec (.drw 0x0#4 0x0#4 0x1#4) quiet = .next t ∧ (t.fb != quiet.fb) = true) ∧
    (∃ t, exec (.storeRegs 0x1#4) (withI 0x300#16 (quiet.setV 0x1#4 1#16)) = .next t ∧ (t.mem != quiet.mem) = true) :=
  ⟨exists_of_afterExec (by decide), exists_of_afterExec (by decide), exists_of_afterExec (by decide),
    exists_of_afterExec (by decide), exists_of_afterExec (by decide), exists_of_afterExec (by decide +kernel),
    exists_of_afterExec (by decide)⟩

theorem witness_OnlyTheseInstructionsWriteVF :
    ∃ t, exec (.addI 0x1#4) (edge 0) = .next t ∧ (t.reg VF != (edge 0).reg VF) = true := exists_of_afterExec (by decide)

theorem witness_OnlyTwoInstructionsReadTheInputs :
    (∀ x nn, Instr.addI 0x1#4 ≠ .rnd x nn) ∧ (∀ x, Instr.addI 0x1#4 ≠ .ldVxK x) ∧
      ∃ t, exec (.addI 0x1#4) (edge 0) = .next t ∧ (t.status == .running) = true :=
  ⟨by simp, by simp, exists_of_afterExec (by decide)⟩

theorem witness_OnlyKeySkipsReadTheLatch :
    (∀ x, Instr.ldVxK 0x1#4 ≠ .skp x) ∧ (∀ x, Instr.ldVxK 0x1#4 ≠ .sknp x) ∧
      ∃ t, exec (.ldVxK 0x1#4) quiet = .next t ∧ (t.pc == 0x200#16) = true :=
  ⟨by simp, by simp, exists_of_afterExec (by decide)⟩

theorem witness_NoInstructionReadsTheSoundTimer :
    (∃ t, exec (.ldStVx 0x1#4) (edge 0) = .next t ∧ (t.st == 0xFF#8) = true) ∧
      ∃ t, exec (.ldVxDt 0x1#4) (edge 0) = .next t ∧ (t.reg 0x1#4 == 1#16) = true :=
  ⟨exists_of_afterExec (by decide), exists_of_afterExec (by decide)⟩

theorem witness_CallPushesAndJumps :
    ({ quiet with sp := 47 } : State).sp.val < 48 ∧ (edge 0).sp.val = 48 := by decide

theorem witness_ReturnPopsAndResumes :
    (0 < (edge 0).sp.val ∧ ((edge 0).stack[(edge 0).sp.val - 1]'(by decide)).toNat ≤ 4094) ∧
      0 < (withEntry 0x204#16 quiet).sp.val ∧ quiet.sp.val = 0 := by
  decide

/-- The call at 4094 with 47 calls pending, and the state after it, which is also the state `u` of the return. -/
theorem witness_ReturnResumesAfterCall :
    let s : State := { quiet with sp := 47, pc := 0xFFE#16 }
    s.sp.val < 48 ∧ s.pc.toNat ≤ 4094 ∧
      ∃ t, exec (.call 0x300#12) s = .next t ∧ (t.sp.val == 48) = true :=
  ⟨by decide, by decide, exists_of_afterExec (by decide)⟩

theorem witness_JumpV0GoesToSum :
    0xFFF + ((quiet.setV 0x0#4 0xF000#16).reg 0x0#4).toNat ≤ 0xFFFF ∧
      0xFFFF < 0xFFF + ((quiet.setV 0x0#4 0xF001#16).reg 0x0#4).toNat := by decide

theorem witness_KeySkipsReadTheLatch :
    ((quiet.setV 0x4#4 15#16).reg 0x4#4).toNat = (0xF#4 : Nibble).toNat ∧ 15 < ((quiet.setV 0x4#4 16#16).reg 0x4#4).toNat := by
  decide

/-- The register hypotheses of the arithmetic statements: a register that is VF and one that is not. -/
theorem witness_FlagRegisterAsOperand : (0x0#4 : Nibble) ≠ VF ∧ (0xE#4 : Nibble) ≠ VF ∧ (0xF#4 : Nibble) = VF := by decide

theorem witness_AddSetsCarry : (0xE#4 : Nibble) ≠ VF := by decide

theorem witness_SubtractStoresAbsoluteDifference : (0xE#4 : Nibble) ≠ VF := by decide

theorem witness_ShiftRightDropsBitZero : (0xE#4 : Nibble) ≠ VF ∧ (0xF#4 : Nibble) = VF := by decide

theorem witness_ShiftLeftTakesBitFifteen : (0xE#4 : Nibble) ≠ VF ∧ (0xF#4 : Nibble) = VF := by decide

theorem witness_RandomIsMaskedAndFree : (0x0F#8 : Byte) &&& ~~~ 0x0F#8 = 0#8 ∧ (0xFF#8 : Byte) &&& ~~~ 0xFF#8 = 0#8 := by decide

/-- d = 0 and d = 15, j = 0 and j = 4, in a state at the limits of the invariant. -/
theorem witness_GlyphAddressLaw :
    (15 < 16 ∧ ((edge 0).setV 0x0#4 15#16 |>.reg 0x0#4).toNat = 15 ∧ ((edge 0).reg 0x0#4).toNat = 0) ∧
      (∀ (a : Nat) (h : a < 80), (edge 0).load a = (edge 0).cfg.font[a]) ∧
      (edge 0).lowOk ∧ (edge 0).cfg.lowWritePolicy ≠ .allow ∧ 0 < 5 ∧ 4 < 5 :=
  ⟨by decide, by decide +kernel, fun _ => by decide +kernel, by decide, by decide, by decide⟩

theorem witness_BcdStoresThreeDigits :
    let s := withI 0xFFD#16 quiet
    let t := withI 0x1FF#16 (withCfg false .ignore quiet)
    let u := withI 0#16 (withCfg false .allow quiet)
    (s.I.toNat + 2 ≤ 4095 ∧ 512 ≤ s.I.toNat) ∧
      (t.I.toNat + 2 ≤ 4095 ∧ t.cfg.lowWritePolicy ≠ .fault) ∧ (u.I.toNat + 2 ≤ 4095 ∧ u.cfg.lowWritePolicy ≠ .fault) := by decide

/-- The first address that faults as out of range, and the last that is protected. -/
theorem witness_BcdStoresThreeDigits_faults :
    let s := withI 0xFFE#16 quiet
    let t := withI 0x1FF#16 quiet
    (4095 < s.I.toNat + 2 ∧ s.indexOk) ∧ t.I.toNat < 512 ∧ t.cfg.lowWritePolicy = .fault := by
  unfold State.indexOk; decide

theorem witness_BulkStoreWritesLowBytes :
    let s := withI 0xFF0#16 quiet
    let t := withI 0x1FF#16 (withCfg false .ignore quiet)
    (s.I.toNat + (0xF#4 : Nibble).toNat ≤ 4095 ∧ 512 ≤ s.I.toNat ∧ (0xF#4 : Nibble).toNat ≤ (0xF#4 : Nibble).toNat) ∧
      (t.I.toNat + (0x0#4 : Nibble).toNat ≤ 4095 ∧ t.cfg.lowWritePolicy ≠ .fault) := by decide

theorem witness_BulkStoreWritesLowBytes_faults :
    let s := withI 0xFFF#16 quiet
    let t := withI 0x1FF#16 quiet
    (4095 < s.I.toNat + (0x1#4 : Nibble).toNat ∧ s.indexOk) ∧ t.I.toNat < 512 ∧ t.cfg.lowWritePolicy = .fault := by
  unfold State.indexOk; decide

theorem witness_BulkLoadReadsBytes :
    (withI 0xFF0#16 quiet).I.toNat + (0xF#4 : Nibble).toNat ≤ 4095 ∧ (withI 0xFFF#16 quiet).I.toNat + (0x0#4 : Nibble).toNat ≤ 4095 ∧
      (0x0#4 : Nibble).toNat < (0x1#4 : Nibble).toNat := by decide

theorem witness_BulkLoadReadsBytes_faults :
    4095 < (withI 0xFFF#16 quiet).I.toNat + (0x1#4 : Nibble).toNat ∧ (withI 0xFFF#16 quiet).indexOk := by
  unfold State.indexOk; decide

/-- The state after the store, which is also the state `u` of the load. -/
theorem witness_StoreThenLoadRestoresRegisters :
    let s := withI 0xFFE#16 (quiet.setV 0x1#4 0x80#16)
    s.I.toNat + (0x1#4 : Nibble).toNat ≤ 4095 ∧ (512 ≤ s.I.toNat ∨ s.cfg.lowWritePolicy = .allow) ∧
      ∃ t, exec (.storeRegs 0x1#4) s = .next t ∧ (t.load 0xFFF == 0x80#8 && t.I == s.I && t.cfg == s.cfg) = true :=
  ⟨by decide, by decide, exists_of_afterExec (by decide)⟩

/-- F155 at 0x0200 with I = 0x0202, over the instruction after it; stores below 512 under the policy allow; the highest addresses. -/
theorem witness_NextFetchSeesBulkStore :
    let s := withI 0x202#16 quiet
    let t := withI 0#16 (withCfg false .allow quiet)
    let u := withI 0xFFD#16 quiet
    (512 ≤ s.I.toNat ∧ s.I.toNat + (0x1#4 : Nibble).toNat ≤ 4095 ∧ s.I.toNat + 2 ≤ 4095) ∧
      (t.cfg.lowWritePolicy ≠ .fault ∧ t.I.toNat + (0xF#4 : Nibble).toNat ≤ 4095) ∧
      (512 ≤ u.I.toNat ∧ u.I.toNat + (0x2#4 : Nibble).toNat ≤ 4095 ∧ u.I.toNat + 2 ≤ 4095) ∧
      (∃ v, exec (.storeRegs 0x1#4) s = .next v ∧ (v.pc == 0x202#16) = true) ∧
      ∃ v, exec (.ldB 0x1#4) s = .next v ∧ (v.pc == 0x202#16) = true :=
  ⟨by decide, by decide, by decide, exists_of_afterExec (by decide), exists_of_afterExec (by decide)⟩

theorem witness_KeyWaitPollsCurrentKey :
    (withTurn [] (some 0xF#4) 0#8 quiet).input.key = some 0xF#4 ∧ quiet.input.key = none := by decide

/-- A sprite in the corner, one that ends at 4095, one with no row; and a drawn cell of the first. -/
theorem witness_DrawInClosedForm :
    let s := withI 0xFFF#16 ((quiet.setV 0x1#4 63#16).setV 0x2#4 31#16)
    let t := withI 0xFF1#16 quiet
    s.spriteFits 0x2#4 0xF#4 ∧ t.spriteFits 0x2#4 0xF#4 ∧ (withI 0xFFF#16 quiet).spriteFits 0x2#4 0x0#4 ∧
      0 < s.spriteRows 0x2#4 0xF#4 ∧ 0 < s.spriteCols 0x1#4 ∧ s.spriteCell 0x1#4 0x2#4 0 0 = 2047 := by
  unfold State.spriteFits; decide

theorem witness_DrawFaultsOnDrawnRowsOnly :
    let s := withI 0xFFF#16 quiet
    let t := withI 0xFFF#16 (quiet.setV 0x2#4 31#16)
    (s.indexOk ∧ t.indexOk) ∧ (1 ≤ s.spriteRows 0x2#4 0x2#4 ∧ s.I.toNat + s.spriteRows 0x2#4 0x2#4 - 1 > 4095) ∧
      ¬ (1 ≤ t.spriteRows 0x2#4 0x2#4 ∧ t.I.toNat + t.spriteRows 0x2#4 0x2#4 - 1 > 4095) := by
  unfold State.indexOk; decide

/-- The glyph of 0 drawn, and a state after it in which the second draw turns it off. -/
theorem witness_DrawTwiceRestores :
    (0x0#4 : Nibble) ≠ VF ∧ quiet.spriteFits 0x0#4 0x5#4 ∧
      (∃ t, exec (.drw 0x0#4 0x0#4 0x5#4) quiet = .next t ∧ (pixel t.fb 0 && t.reg VF == 0#16) = true) ∧
      ∀ t, exec (.drw 0x0#4 0x0#4 0x5#4) quiet = .next t → ∃ u, exec (.drw 0x0#4 0x0#4 0x5#4) t = .next u ∧ True := by
  refine ⟨by decide, .inr (by decide), exists_of_afterExec (by decide +kernel), fun t _ => ⟨_, rfl, trivial⟩⟩

theorem witness_DrawOnClearedScreen :
    (∃ t, exec .cls (withPixels [(0, 0)] quiet) = .next t ∧ (t.fb == 0 && t.I == 0#16) = true) ∧
      quiet.fb = 0 ∧ quiet.spriteFits 0x0#4 0x5#4 :=
  ⟨exists_of_afterExec (by decide +kernel), rfl, .inr (by decide)⟩

/-- The limits of the two families of words. -/
theorem witness_UnimplementedPatternsFault :
    (nibble0 0x0FFF#16 = 0x0#4 ∧ 0x0FFF#16 ≠ 0x00E0#16 ∧ 0x0FFF#16 ≠ 0x00EE#16 ∧ 0x0FFF#16 ≠ 0x00FD#16) ∧
      (nibble0 0xFF75#16 = 0xF#4 ∧ fieldNN 0xFF75#16 = 0x75#8) ∧ (nibble0 0xF085#16 = 0xF#4 ∧ fieldNN 0xF085#16 = 0x85#8) := by
  decide

/-- The empty image and the longest; the limits of each range of addresses. -/
theorem witness_ResetValues :
    ([] : List Byte).length ≤ 3584 ∧ (List.replicate 3584 0x60#8).length ≤ 3584 ∧ 79 < 80 ∧ (80 ≤ 80 ∧ 511 < 512) ∧
      3583 < (List.replicate 3584 0x60#8).length ∧ (512 + ([0x60#8] : List Byte).length ≤ 4095 ∧ 4095 ≤ 4095) := by
  simp only [List.length_replicate, List.length_nil, List.length_cons]; decide

/-- The shortest image that does not load, and one above the saturation of the detail. -/
theorem witness_LoadFailureFaults :
    3584 < (List.replicate 3585 0x60#8).length ∧ (List.replicate 3585 0x60#8).length ≤ 0xFFFFF ∧
      3584 < (List.replicate 0x100000 0x60#8).length ∧ ¬ (List.replicate 0x100000 0x60#8).length ≤ 0xFFFFF := by
  simp only [List.length_replicate]; decide

theorem witness_ResetAgainHasTheSameEffect :
    ([] : List Byte).length ≤ 3584 ∧ (List.replicate 3584 0x60#8).length ≤ 3584 := by
  simp only [List.length_replicate, List.length_nil]; decide

/-- A faulted state for each end of the code table, a state without a fault, and the corners of the screen. -/
theorem witness_PortsShowTheState :
    ({ quiet with status := .faulted .loadError 0x200#16 3585#20 } : State).status = .faulted .loadError 0x200#16 3585#20 ∧
      ({ quiet with status := .faulted .storeToProtected 0x200#16 511#20 } : State).faultReport = some (0x9#4, 0x200#16, 511#20) ∧
      quiet.faultValid = false ∧ (0 < 64 ∧ 0 < 32) ∧ (63 < 64 ∧ 31 < 32) := by decide

end Sys2Proof.Tests
end

section
/-! The scope of the model (spec 00_scope.md): a step always answers, it keeps the parameters and uses up one turn of the host (R9,
10_state.md R43), so any number of steps does; and words written out from the opcode table decode as it says (30_encoding.md R97 to
R99). -/

namespace Sys2Proof.Machine

/-- The part of the state that belongs to the host and to the parameters is the same in `s` and `t`. -/
structure State.SameEnv (s t : State) : Prop where
  cfg : t.cfg = s.cfg
  script : t.script = s.script
  turn : t.turn = s.turn

/-- Every meaning is a next state: none faults or refuses in the host's sense. -/
theorem exec_answers (i : Instr) (s : State) : ∃ t, exec i s = .next t := by
  cases i <;> exact ⟨_, rfl⟩

/-- Whether it completes, halts or faults, an instruction leaves the parameters and the host's turns as they were. -/
theorem exec_sameEnv {i : Instr} {s t : State} (h : exec i s = .next t) : s.SameEnv t := by
  obtain ⟨-, -, -, -, hcfg, hscript, hturn⟩ | ⟨-, rfl⟩ | ⟨c, d, rfl⟩ := exec_outcome h
  · exact ⟨hcfg, hscript, hturn⟩
  · exact ⟨rfl, rfl, rfl⟩
  · exact ⟨rfl, rfl, rfl⟩

theorem State.runningStep_answers (s : State) : ∃ t, s.runningStep = .next t := by
  unfold State.runningStep
  split
  · exact ⟨_, rfl⟩
  · split
    · exact ⟨_, rfl⟩
    · exact exec_answers _ s

theorem State.runningStep_sameEnv {s t : State} (h : s.runningStep = .next t) : s.SameEnv t := by
  obtain ⟨-, rfl⟩ | ⟨op, -, -, rfl⟩ | ⟨op, i, -, -, hexec⟩ := State.runningStep_cases h
  · exact ⟨rfl, rfl, rfl⟩
  · exact ⟨rfl, rfl, rfl⟩
  · exact exec_sameEnv hexec

theorem State.coreStep_answers (s : State) : ∃ t, s.coreStep = .next t ∧ s.SameEnv t := by
  by_cases hs : s.status = .running
  · rw [State.coreStep_running hs]
    obtain ⟨t, ht⟩ := s.runningStep_answers
    exact ⟨t, ht, State.runningStep_sameEnv ht⟩
  · exact ⟨s.idle, State.coreStep_ended (by simp [State.ended, hs]), rfl, rfl, rfl⟩

/-- Every step request is answered, with the parameters as they were and one turn of the host used up. -/
theorem step_answers (s : State) :
    ∃ t, step s = .next t ∧ t.cfg = s.cfg ∧ t.script = s.script.tail ∧ t.turn = s.turn + 1 := by
  obtain ⟨u, hu, henv⟩ := s.hostMoves.coreStep_answers
  refine ⟨u.endTurn, step_eq_next.mpr ⟨u, hu, rfl⟩, ?_, ?_, ?_⟩
  · simp [henv.cfg]
  · simp [henv.script]
  · simp [henv.turn]

/-- Settles O16, by induction on the number of steps with the state general: one step, then the rest from the state it answers. -/
theorem runKeepsParameters : Obligations.RunKeepsParameters := by
  unfold Obligations.RunKeepsParameters
  intro k
  induction k with
  | zero => exact fun s => ⟨s, rfl, rfl, rfl, rfl⟩
  | succ k ih =>
    intro s
    obtain ⟨u, hstep, ucfg, uscript, uturn⟩ := step_answers s
    obtain ⟨t, hrun, tcfg, tturn, tscript⟩ := ih u
    refine ⟨t, (core_run_succ hstep).trans hrun, tcfg.trans ucfg, ?_, ?_⟩
    · omega
    · rw [tscript, uscript, List.drop_tail]

/-- Settles O1: the words are fixed, so the decoder is evaluated on each of them. -/
theorem wordsDecodeAsWritten : Obligations.WordsDecodeAsWritten := by
  unfold Obligations.WordsDecodeAsWritten
  decide

end Sys2Proof.Machine
end

section
/-! What an instruction that can fault does where it completes. A fault is told apart by `cont`, which it leaves at 0 (spec 60_exceptions.md
R228). -/

namespace Sys2Proof.Machine

/-! ### Reads after a write of the framebuffer, a timer or the three bytes of FX33 -/

@[simp] theorem State.withFb_reg (s : State) (fb : BitVec 2048) (q : Nibble) : { s with fb := fb }.reg q = s.reg q := rfl
@[simp] theorem State.withFb_load (s : State) (fb : BitVec 2048) (a : Nat) : { s with fb := fb }.load a = s.load a := rfl
@[simp] theorem State.withDt_reg (s : State) (t : Byte) (q : Nibble) : { s with dt := t }.reg q = s.reg q := rfl
@[simp] theorem State.withDt_load (s : State) (t : Byte) (a : Nat) : { s with dt := t }.load a = s.load a := rfl
@[simp] theorem State.withSt_reg (s : State) (t : Byte) (q : Nibble) : { s with st := t }.reg q = s.reg q := rfl
@[simp] theorem State.withSt_load (s : State) (t : Byte) (a : Nat) : { s with st := t }.load a = s.load a := rfl
@[simp] theorem State.storeBcd_reg (s : State) (v : Word) (q : Nibble) : (s.storeBcd v).reg q = s.reg q := rfl

/-! ### The instructions that can fault, where they complete -/

theorem exec_ret_completes {s t : State} (h : exec .ret s = .next t) (hc : t.cont = true) :
    ∃ a u, s.pop = some (a, u) ∧ t = u.finish (a + 2) false := by
  cases h
  cases hp : s.pop with
  | none => simp [hp] at hc
  | some p => exact ⟨p.1, p.2, rfl, by simp⟩

theorem exec_call_completes {nnn : Addr} {s t : State} (h : exec (.call nnn) s = .next t) (hc : t.cont = true) :
    ∃ u, s.push s.pc = some u ∧ t = u.finish (zextAddr nnn) false := by
  cases h
  cases hp : s.push s.pc with
  | none => simp [hp] at hc
  | some u => exact ⟨u, rfl, by simp⟩

theorem exec_jpV0_completes {nnn : Addr} {s t : State} (h : exec (.jpV0 nnn) s = .next t) (hc : t.cont = true) :
    nnn.toNat + (s.reg 0).toNat ≤ 0xFFFF ∧ t = s.finish (BitVec.ofNat 16 (nnn.toNat + (s.reg 0).toNat)) false := by
  cases h
  by_cases hb : nnn.toNat + (s.reg 0).toNat > 0xFFFF
  · rw [if_pos hb] at hc; simp at hc
  · exact ⟨by omega, if_neg hb⟩

theorem exec_skp_completes {x : Nibble} {s t : State} (h : exec (.skp x) s = .next t) (hc : t.cont = true) :
    ∃ k, keyIndex (s.reg x) = some k ∧ t = s.skipIf (s.keyDown k) := by
  cases h
  cases hk : keyIndex (s.reg x) with
  | none => simp [hk] at hc
  | some k => exact ⟨k, rfl, by simp⟩

theorem exec_sknp_completes {x : Nibble} {s t : State} (h : exec (.sknp x) s = .next t) (hc : t.cont = true) :
    ∃ k, keyIndex (s.reg x) = some k ∧ t = s.skipIf (!s.keyDown k) := by
  cases h
  cases hk : keyIndex (s.reg x) with
  | none => simp [hk] at hc
  | some k => exact ⟨k, rfl, by simp⟩

theorem exec_ldB_completes {x : Nibble} {s t : State} (h : exec (.ldB x) s = .next t) (hc : t.cont = true) :
    s.checkStore s.I.toNat 3 = none ∧ t = (s.storeBcd (s.reg x)).done := by
  cases h
  cases hk : s.checkStore s.I.toNat 3 with
  | some p => simp [hk] at hc
  | none => exact ⟨rfl, by simp⟩

theorem exec_storeRegs_completes {x : Nibble} {s t : State} (h : exec (.storeRegs x) s = .next t)
    (hc : t.cont = true) : s.checkStore s.I.toNat (x.toNat + 1) = none ∧ t = (s.storeAll x).done := by
  cases h
  cases hk : s.checkStore s.I.toNat (x.toNat + 1) with
  | some p => simp [hk] at hc
  | none => exact ⟨rfl, by simp⟩

theorem exec_loadRegs_completes {x : Nibble} {s t : State} (h : exec (.loadRegs x) s = .next t)
    (hc : t.cont = true) : checkLoad s.I.toNat (x.toNat + 1) = none ∧ t = (s.loadAll x).done := by
  cases h
  cases hk : checkLoad s.I.toNat (x.toNat + 1) with
  | some p => simp [hk] at hc
  | none => exact ⟨rfl, by simp⟩

theorem State.setFlag_setFlag_withFb (s : State) (a b : Bool) (fb : BitVec 2048) :
    State.setFlag { s.setFlag a with fb := fb } b = State.setFlag { s with fb := fb } b := by
  simp only [State.setFlag, State.setV, Vector.set_set]

theorem exec_drw_completes {x y n : Nibble} {s t : State} (h : exec (.drw x y n) s = .next t) (hc : t.cont = true) :
    ∃ fb b, t = (State.setFlag { s with fb := fb } b).finish s.nextPc true := by
  simp only [exec, execDrw, Host.Outcome.next.injEq] at h
  subst h
  split
  · rename_i hb; simp [hb] at hc
  · exact ⟨_, _, congrArg (State.finish · s.nextPc true) (s.setFlag_setFlag_withFb _ _ _)⟩

theorem exec_ldVxK_cases {x : Nibble} {s t : State} (h : exec (.ldVxK x) s = .next t) :
    (∃ k, s.input.key = some k ∧ t = (s.setV x (zextKey k)).done) ∨ (s.input.key = none ∧ t = s.finish s.pc false) := by
  cases h
  cases s.input.key with
  | some k => exact .inl ⟨k, rfl, rfl⟩
  | none => exact .inr ⟨rfl, rfl⟩

end Sys2Proof.Machine
end

section
/-! Which state each instruction writes (spec 10_state.md R25, R27, R32, R35, R36, R39, R40; 20_memory.md R70). -/

namespace Sys2Proof.Machine

/-- What each instruction can write beside pc, the outputs and, where it halts or faults, the status: its row of 10_state.md R25 (V), R27 (I),
R32 (the stack), R35 and R36 (the timers), R39 (the framebuffer) and 20_memory.md R70 (memory). -/
def State.writesOf (s : State) : Instr → Writes
  | .cls => { pixels := true }
  | .ret | .call _ => { stack := true }
  | .ldImm x _ | .addImm x _ | .rnd x _ | .ldVxDt x | .ldVxK x => { regs := [x] }
  | .ldReg x _ | .orReg x _ | .andReg x _ | .xorReg x _ => { regs := [x] }
  | .addReg x _ | .subReg x _ | .shr x _ | .subnReg x _ | .shl x _ => { regs := [x, VF] }
  | .ldI _ | .ldF _ => { index := true }
  | .addI _ => { regs := [VF], index := true }
  | .drw _ _ _ => { regs := [VF], pixels := true }
  | .ldDtVx _ => { delay := true }
  | .ldStVx _ => { sound := true }
  | .ldB _ => { bytes := [s.effAddr 0, s.effAddr 1, s.effAddr 2] }
  | .storeRegs x => { bytes := (regsTo x).map fun k => s.effAddr k.toNat }
  | .loadRegs x => { regs := regsTo x }
  | _ => {}

/-- From `s` to `t` nothing changes but what `w` lists, pc and the outputs; where `w` lists no byte, memory is the very same list. -/
def State.Frame (w : Writes) (s t : State) : Prop := s.KeepsBut w t ∧ (w.bytes = [] → t.mem = s.mem)

/-- A change of memory alone keeps everything but the bytes it changes. -/
theorem State.frame_withMem {s : State} {w : Writes} {mem : List Host.Cell} (hne : w.bytes ≠ [])
    (h : ∀ a, a ∉ w.bytes → { s with mem := mem }.load a = s.load a) : s.Frame w { s with mem := mem } :=
  ⟨⟨fun _ _ => rfl, fun _ => rfl, fun _ => ⟨rfl, rfl⟩, fun _ => rfl, fun _ => rfl, fun _ => rfl, fun _ => rfl, h, rfl, rfl, rfl, rfl⟩,
    fun h => absurd h hne⟩

/-- A change of V alone keeps everything but the registers it changes. -/
theorem State.frame_withV {s : State} {w : Writes} {V : Vector Word 16}
    (h : ∀ r, r ∉ w.regs → { s with V := V }.reg r = s.reg r) : s.Frame w { s with V := V } :=
  ⟨⟨h, fun _ => rfl, fun _ => ⟨rfl, rfl⟩, fun _ => rfl, fun _ => rfl, fun _ => rfl, fun _ => rfl, fun _ _ => rfl, rfl, rfl, rfl, rfl⟩,
    fun _ => rfl⟩

theorem State.Frame.done {s t : State} {w : Writes} (h : s.Frame w t) : s.Frame w t.done := h

/-- An instruction that completes changes only what its row of `writesOf` lists. -/
theorem exec_completes_frame {i : Instr} {s t : State} (h : exec i s = .next t) (hc : t.cont = true) :
    s.Frame (s.writesOf i) t := by
  cases i
  case storeRegs x =>
    obtain ⟨-, rfl⟩ := exec_storeRegs_completes h hc
    have hload : ∀ a, a ∉ (s.writesOf (.storeRegs x)).bytes → (s.storeAll x).load a = s.load a := fun a ha =>
      (s.load_storeAll x a).2 fun k hk hak => absurd (List.mem_map.mpr ⟨k, mem_regsTo.mpr hk, hak.symm⟩) ha
    rw [State.storeAll_eq] at hload ⊢
    exact (State.frame_withMem (by simp [State.writesOf, regsTo]) hload).done
  case loadRegs x =>
    obtain ⟨-, rfl⟩ := exec_loadRegs_completes h hc
    have hreg : ∀ r, r ∉ (s.writesOf (.loadRegs x)).regs → (s.loadAll x).reg r = s.reg r := fun r hr => by
      rw [State.reg_loadAll, if_neg (mt mem_regsTo.mpr hr)]
    rw [State.loadAll_eq] at hreg ⊢
    exact (State.frame_withV hreg).done
  case ret =>
    obtain ⟨a, u, hpop, rfl⟩ := exec_ret_completes h hc
    obtain ⟨_, -, rfl⟩ := State.pop_eq_some.mp hpop
    simp [State.Frame, State.KeepsBut, State.writesOf, State.reg, State.load]
  case call nnn =>
    obtain ⟨u, hpush, rfl⟩ := exec_call_completes h hc
    obtain ⟨_, rfl⟩ := State.push_eq_some.mp hpush
    simp [State.Frame, State.KeepsBut, State.writesOf, State.reg, State.load]
  case jpV0 nnn =>
    obtain ⟨-, rfl⟩ := exec_jpV0_completes h hc
    simp [State.Frame, State.KeepsBut, State.writesOf]
  case skp x =>
    obtain ⟨k, -, rfl⟩ := exec_skp_completes h hc
    simp [State.Frame, State.KeepsBut, State.writesOf]
  case sknp x =>
    obtain ⟨k, -, rfl⟩ := exec_sknp_completes h hc
    simp [State.Frame, State.KeepsBut, State.writesOf]
  case ldB x =>
    obtain ⟨-, rfl⟩ := exec_ldB_completes h hc
    simp +contextual [State.Frame, State.KeepsBut, State.writesOf, State.load_storeBcd]
  case drw x y n =>
    obtain ⟨fb, b, rfl⟩ := exec_drw_completes h hc
    simp +contextual [State.Frame, State.KeepsBut, State.writesOf, State.reg_setFlag]
  case ldVxK x =>
    obtain ⟨k, -, rfl⟩ | ⟨-, rfl⟩ := exec_ldVxK_cases h
    · simp +contextual [State.Frame, State.KeepsBut, State.writesOf, State.reg_setV]
    · simp [State.Frame, State.KeepsBut, State.writesOf]
  case exit | unimpl00CN | unimpl00FB | unimpl00FC | unimpl00FE | unimpl00FF | unimpl0NNN | unimplFX75 | unimplFX85 =>
    cases h
    simp at hc
  all_goals
    cases h
    simp +contextual [State.Frame, State.KeepsBut, State.writesOf, State.reg_setV, State.reg_setFlag, State.reg_absDiff]

theorem State.Frame.withStatus {w : Writes} {s t : State} (h : s.Frame w t) : s.Frame { w with status := true } t := by
  obtain ⟨⟨hreg, hI, hstack, hdt, hst, hfb, -, hload, henv⟩, hmem⟩ := h
  exact ⟨⟨hreg, hI, hstack, hdt, hst, hfb, fun h => Bool.noConfusion h, hload, henv⟩, hmem⟩

theorem State.frame_raise (s : State) (w : Writes) (c : Cause) (d : Nat) :
    s.Frame { w with status := true } (s.raise c d) := by
  simp [State.Frame, State.KeepsBut]

theorem State.frame_halt (s : State) (w : Writes) : s.Frame { w with status := true } s.halt := by
  simp [State.Frame, State.KeepsBut]

/-- Whether it completes, halts or faults, an instruction changes only what its row of `writesOf` lists, and the status. -/
theorem exec_frame {i : Instr} {s t : State} (h : exec i s = .next t) :
    s.Frame { s.writesOf i with status := true } t := by
  obtain ⟨-, hcont, -⟩ | ⟨-, rfl⟩ | ⟨c, d, rfl⟩ := exec_outcome h
  · exact (exec_completes_frame h hcont).withStatus
  · exact s.frame_halt _
  · exact s.frame_raise _ c d

/-! ### Which rows list a part of the state -/

theorem State.index_writesOf (s : State) (i : Instr) :
    (s.writesOf i).index = true ↔ (∃ n, i = .ldI n) ∨ (∃ x, i = .addI x) ∨ (∃ x, i = .ldF x) := by
  cases i <;> simp [State.writesOf]

theorem State.stack_writesOf (s : State) (i : Instr) :
    (s.writesOf i).stack = true ↔ (∃ n, i = .call n) ∨ i = .ret := by
  cases i <;> simp [State.writesOf]

theorem State.delay_writesOf (s : State) (i : Instr) : (s.writesOf i).delay = true ↔ ∃ x, i = .ldDtVx x := by
  cases i <;> simp [State.writesOf]

theorem State.sound_writesOf (s : State) (i : Instr) : (s.writesOf i).sound = true ↔ ∃ x, i = .ldStVx x := by
  cases i <;> simp [State.writesOf]

theorem State.pixels_writesOf (s : State) (i : Instr) :
    (s.writesOf i).pixels = true ↔ i = .cls ∨ ∃ x y n, i = .drw x y n := by
  cases i <;> simp [State.writesOf]

theorem State.bytes_writesOf (s : State) (i : Instr) :
    (s.writesOf i).bytes ≠ [] ↔ (∃ x, i = .ldB x) ∨ (∃ x, i = .storeRegs x) := by
  cases i <;> simp [State.writesOf, regsTo]

/-- Settles O20: what is not in the instruction's row of `writesOf` is as it was, and each part of the state is in the rows named. -/
theorem onlyTheseInstructionsWrite : Obligations.OnlyTheseInstructionsWrite := by
  unfold Obligations.OnlyTheseInstructionsWrite
  intro i s t h
  obtain ⟨⟨-, hI, hstack, hdt, hst, hfb, -, -, henv⟩, hmem⟩ := exec_frame h
  simp only [← s.index_writesOf, ← s.stack_writesOf, ← s.delay_writesOf, ← s.sound_writesOf, ← s.pixels_writesOf,
    ← s.bytes_writesOf, ← Bool.not_eq_false]
  exact ⟨mt hI, fun hne hw => hne.elim (· (hstack hw).1) (· (hstack hw).2), mt hdt, mt hst, mt hfb, mt hmem, henv⟩

/-- The rows that list VF: the seven that set a flag, and those whose destination is VF (10_state.md R25). -/
theorem State.vf_mem_writesOf {s : State} {i : Instr} (h : VF ∈ (s.writesOf i).regs) :
    (∃ x y, i = .addReg x y ∨ i = .subReg x y ∨ i = .shr x y ∨ i = .subnReg x y ∨ i = .shl x y) ∨
    (∃ x, i = .addI x) ∨ (∃ x y n, i = .drw x y n) ∨
    (∃ nn, i = .ldImm VF nn ∨ i = .addImm VF nn ∨ i = .rnd VF nn) ∨
    (∃ y, i = .ldReg VF y ∨ i = .orReg VF y ∨ i = .andReg VF y ∨ i = .xorReg VF y) ∨
    i = .ldVxDt VF ∨ i = .ldVxK VF ∨ i = .loadRegs VF := by
  cases i
  case loadRegs x =>
    have hle : VF.toNat ≤ x.toNat := mem_regsTo.mp h
    have hx : x = VF := BitVec.eq_of_toNat_eq (le_antisymm (Nat.le_of_lt_succ x.isLt) hle)
    simp [hx]
  all_goals simp_all [State.writesOf]

/-- Settles O21: VF changes only where the instruction's row lists it among the registers. -/
theorem onlyTheseInstructionsWriteVF : Obligations.OnlyTheseInstructionsWriteVF := by
  unfold Obligations.OnlyTheseInstructionsWriteVF
  intro i s t h hne
  obtain ⟨⟨hreg, -⟩, -⟩ := exec_frame h
  exact State.vf_mem_writesOf (not_imp_comm.mp (hreg VF) hne)

end Sys2Proof.Machine
end

section
/-! Which state an instruction reads of what the host writes: the key latch, the sound timer, the inputs of the step (spec 10_state.md R36,
R40, R47, R49). -/

namespace Sys2Proof.Machine

/-- The state with another key latch, another sound timer and other turns of the host. -/
def State.withHost (s : State) (keys : Vector Bool 16) (st : Byte) (script : List HostTurn) (turn : Nat) : State :=
  { s with keys := keys, st := st, script := script, turn := turn }

section
variable (s : State) (keys : Vector Bool 16) (st : Byte) (script : List HostTurn) (turn : Nat)

theorem State.storeAll_withHost (x : Nibble) :
    (s.withHost keys st script turn).storeAll x = (s.storeAll x).withHost keys st script turn :=
  List.foldl_hom (f := fun t : State => t.withHost keys st script turn) fun _ _ => rfl

theorem State.loadAll_withHost (x : Nibble) :
    (s.withHost keys st script turn).loadAll x = (s.loadAll x).withHost keys st script turn :=
  List.foldl_hom (f := fun t : State => t.withHost keys st script turn) fun _ _ => rfl

theorem State.pop_withHost :
    (s.withHost keys st script turn).pop = s.pop.map fun p => (p.1, p.2.withHost keys st script turn) := by
  by_cases h : 0 < s.sp.val <;> simp [State.pop, State.withHost, h]

theorem State.push_withHost (v : Word) :
    (s.withHost keys st script turn).push v = (s.push v).map fun u => u.withHost keys st script turn := by
  by_cases h : s.sp.val < 48 <;> simp [State.push, State.withHost, h]

@[simp] theorem State.withHost_I : (s.withHost keys st script turn).I = s.I := rfl
@[simp] theorem State.withHost_pc : (s.withHost keys st script turn).pc = s.pc := rfl
@[simp] theorem State.withHost_reg (q : Nibble) : (s.withHost keys st script turn).reg q = s.reg q := rfl
@[simp] theorem State.withHost_checkStore (a n : Nat) :
    (s.withHost keys st script turn).checkStore a n = s.checkStore a n := rfl
end

/-- An instruction reads the key latch only as EX9E or EXA1, the host's turn only as CXNN or FX0A, and the sound timer never: elsewhere the
next state differs in these fields alone, and FX18 overwrites the sound timer whatever it held. -/
theorem exec_withHost {s t : State} {i : Instr} {keys : Vector Bool 16} {script : List HostTurn} {turn : Nat} (st : Byte)
    (hkeys : keys = s.keys ∨ (∀ x, i ≠ .skp x) ∧ ∀ x, i ≠ .sknp x)
    (hinput : script = s.script ∧ turn = s.turn ∨ (∀ x nn, i ≠ .rnd x nn) ∧ ∀ x, i ≠ .ldVxK x)
    (h : exec i s = .next t) :
    exec i (s.withHost keys st script turn) =
      .next (t.withHost keys (if ∃ x, i = .ldStVx x then t.st else st) script turn) := by
  by_cases hi : ∃ x, i = .ldStVx x
  · obtain ⟨x, rfl⟩ := hi
    rw [if_pos ⟨x, rfl⟩]
    cases h; rfl
  rw [if_neg hi]
  cases i
  case ldStVx x => exact absurd ⟨x, rfl⟩ hi
  case ret =>
    simp only [exec, execRet, State.pop_withHost] at h ⊢
    cases h
    cases s.pop <;> rfl
  case call nnn =>
    simp only [exec, execCall, State.withHost_pc, State.push_withHost] at h ⊢
    cases h
    cases s.push s.pc <;> rfl
  case jpV0 | drw =>
    cases h
    refine congrArg Host.Outcome.next ?_
    rw [apply_ite (State.withHost · keys st script turn)]
    rfl
  case skp x | sknp x =>
    obtain rfl : keys = s.keys := by simpa using hkeys
    simp only [exec, execSkp, execSknp, State.withHost_reg] at h ⊢
    cases h
    cases keyIndex (s.reg x) <;> rfl
  case rnd x nn =>
    obtain ⟨rfl, rfl⟩ : script = s.script ∧ turn = s.turn := by simpa using hinput
    cases h; rfl
  case ldVxK x =>
    obtain ⟨rfl, rfl⟩ : script = s.script ∧ turn = s.turn := by simpa using hinput
    cases h; rfl
  case ldB x =>
    simp only [exec, execLdB, State.withHost_I, State.withHost_reg, State.withHost_checkStore] at h ⊢
    cases h
    cases s.checkStore s.I.toNat 3 <;> rfl
  case storeRegs x =>
    simp only [exec, execStoreRegs, State.withHost_I, State.withHost_checkStore, State.storeAll_withHost] at h ⊢
    cases h
    cases s.checkStore s.I.toNat (x.toNat + 1) <;> rfl
  case loadRegs x =>
    simp only [exec, execLoadRegs, State.withHost_I, State.loadAll_withHost] at h ⊢
    cases h
    cases checkLoad s.I.toNat (x.toNat + 1) <;> rfl
  all_goals cases h; rfl

/-- Only FX18 changes the sound timer. -/
theorem exec_soundTimer {i : Instr} {s t : State} (h : exec i s = .next t) :
    (if ∃ x, i = .ldStVx x then t.st else s.st) = t.st := by
  obtain ⟨⟨-, -, -, -, hst, -⟩, -⟩ := exec_frame h
  split
  · rfl
  · rename_i hi
    exact (hst (Bool.eq_false_iff.mpr (mt (s.sound_writesOf i).mp hi))).symm

/-- Settles O22: `exec_withHost` with the latch and the sound timer as they are. -/
theorem onlyTwoInstructionsReadTheInputs : Obligations.OnlyTwoInstructionsReadTheInputs := by
  unfold Obligations.OnlyTwoInstructionsReadTheInputs
  intro i s t script turn hrnd hkey h
  obtain ⟨⟨-, -, -, -, -, -, -, -, hkeys, -⟩, -⟩ := exec_frame h
  refine (exec_withHost s.st (.inl rfl) (.inr ⟨hrnd, hkey⟩) h).trans ?_
  rw [exec_soundTimer h, ← hkeys]
  rfl

/-- Settles O23: `exec_withHost` with the sound timer and the turns as they are. -/
theorem onlyKeySkipsReadTheLatch : Obligations.OnlyKeySkipsReadTheLatch := by
  unfold Obligations.OnlyKeySkipsReadTheLatch
  intro i s t keys hskp hsknp h
  obtain ⟨⟨-, -, -, -, -, -, -, -, -, -, hscript, hturn⟩, -⟩ := exec_frame h
  refine (exec_withHost s.st (.inr ⟨hskp, hsknp⟩) (.inl ⟨rfl, rfl⟩) h).trans ?_
  rw [exec_soundTimer h, ← hscript, ← hturn]
  rfl

/-- Settles O24: `exec_withHost` with the latch and the turns as they are. -/
theorem noInstructionReadsTheSoundTimer : Obligations.NoInstructionReadsTheSoundTimer := by
  unfold Obligations.NoInstructionReadsTheSoundTimer
  intro i s t st h
  obtain ⟨⟨-, -, -, -, -, -, -, -, hkeys, -, hscript, hturn⟩, -⟩ := exec_frame h
  refine (exec_withHost st (.inl rfl) (.inl ⟨rfl, rfl⟩) h).trans ?_
  rw [← hkeys, ← hscript, ← hturn]
  split <;> rfl

end Sys2Proof.Machine
end

section
/-! A word that decodes is the word of the instruction it decodes to (spec 30_encoding.md R95 to R98), and which words are 00FD, 00E0 and
DXYN. -/

namespace Sys2Proof

theorem encode_decodeFamily0 {op : Word} (h : nibble0 op = 0x0#4) : encode (decodeFamily0 op) = op := by
  have hNNN := (eq_wordNNN op).symm
  have hXYN := (eq_wordOfNibbles op).symm
  rw [h] at hNNN hXYN
  unfold decodeFamily0
  split_ifs with h1 h2 h3 h4 h5 h6 h7 hc
  any_goals (subst op; rfl)
  · have hx : fieldX op = (op.extractLsb' 4 12).extractLsb' 4 4 := by
      ext k hk; simp [fieldX, show 4 + k < 12 by omega, ← Nat.add_assoc]
    have hy : fieldY op = (op.extractLsb' 4 12).extractLsb' 0 4 := by
      ext k hk; simp [fieldY, show k < 12 by omega]
    rw [hc] at hx hy
    rw [hx, hy] at hXYN
    exact hXYN
  · exact hNNN

theorem encode_decodeFamily8 {x y n : Nibble} {i : Instr} (h : decodeFamily8 x y n = some i) :
    encode i = wordOfNibbles 0x8#4 x y n := by
  unfold decodeFamily8 at h
  split at h <;> cases h <;> rfl

theorem encode_decodeFamilyE {x : Nibble} {nn : Byte} {i : Instr} (h : decodeFamilyE x nn = some i) :
    encode i = wordXNN 0xE#4 x nn := by
  unfold decodeFamilyE at h
  split at h <;> cases h <;> rfl

theorem encode_decodeFamilyF {x : Nibble} {nn : Byte} {i : Instr} (h : decodeFamilyF x nn = some i) :
    encode i = wordXNN 0xF#4 x nn := by
  unfold decodeFamilyF at h
  split at h <;> cases h <;> rfl

/-- A word that decodes is the word of its instruction (30_encoding.md R95 to R98). -/
theorem encode_of_decodeWord {op : Word} {i : Instr} (h : decodeWord op = some i) : encode i = op := by
  have hNNN := (eq_wordNNN op).symm
  have hXNN := (eq_wordXNN op).symm
  have hXYN := (eq_wordOfNibbles op).symm
  unfold decodeWord at h
  split at h <;> rename_i hf
  case h_1 => cases h; exact encode_decodeFamily0 hf
  case h_2 | h_3 | h_11 | h_12 => cases h; rw [hf] at hNNN; exact hNNN
  case h_4 | h_5 | h_7 | h_8 | h_13 => cases h; rw [hf] at hXNN; exact hXNN
  case h_6 | h_10 =>
    split at h
    · rename_i hn
      cases h; rw [hf, hn] at hXYN; exact hXYN
    · cases h
  case h_9 => rw [hf] at hXYN; exact (encode_decodeFamily8 h).trans hXYN
  case h_14 => cases h; rw [hf] at hXYN; exact hXYN
  case h_15 => rw [hf] at hXNN; exact (encode_decodeFamilyE h).trans hXNN
  case h_16 =>
    have hf : nibble0 op = 0xF#4 := by
      clear hNNN hXNN hXYN h
      generalize nibble0 op = n at *
      revert n
      decide
    rw [hf] at hXNN; exact (encode_decodeFamilyF h).trans hXNN

namespace Machine

theorem exit_iff_word {op : Word} {i : Instr} (h : decodeWord op = some i) : i = .exit ↔ op = 0x00FD#16 := by
  constructor
  · rintro rfl; exact (encode_of_decodeWord h).symm
  · rintro rfl; exact (Option.some.inj h).symm

theorem cls_iff_word {op : Word} {i : Instr} (h : decodeWord op = some i) : i = .cls ↔ op = 0x00E0#16 := by
  constructor
  · rintro rfl; exact (encode_of_decodeWord h).symm
  · rintro rfl; exact (Option.some.inj h).symm

theorem drw_iff_family {op : Word} {i : Instr} (h : decodeWord op = some i) :
    (∃ x y n, i = .drw x y n) ↔ nibble0 op = 0xD#4 := by
  constructor
  · rintro ⟨x, y, n, rfl⟩
    rw [← encode_of_decodeWord h]
    exact nibble0_wordOfNibbles ..
  · intro hf
    rw [decodeWord, hf] at h
    exact ⟨_, _, _, (Option.some.inj h).symm⟩

end Machine
end Sys2Proof
end

section
/-! The outputs of a step and pc after an instruction (spec 10_state.md R30, R51), and the views of the state the host has (R52). -/

namespace Sys2Proof.Machine

theorem State.faultValid_iff {s : State} : s.faultValid = true ↔ ∃ c p d, s.status = .faulted c p d := by
  unfold State.faultValid State.faultReport
  split <;> simp_all

@[simp] theorem State.raise_faultValid (s : State) (c : Cause) (d : Nat) : (s.raise c d).faultValid = true := rfl
@[simp] theorem State.halt_faultValid (s : State) : s.halt.faultValid = false := rfl
@[simp] theorem State.endTurn_faultValid (s : State) : s.endTurn.faultValid = s.faultValid := rfl
@[simp] theorem State.hostMoves_fetch (s : State) : s.hostMoves.fetch = s.fetch := rfl

theorem State.faultValid_of_running {s : State} (h : s.status = .running) : s.faultValid = false := by
  rw [Bool.eq_false_iff, Ne, State.faultValid_iff]
  simp [h]

/-- The outputs of one instruction (10_state.md R51). -/
theorem exec_outputs {i : Instr} {s t : State} (hs : s.status = .running) (h : exec i s = .next t) :
    (t.cont = false ↔ i = .exit ∨ t.faultValid = true) ∧
    (t.redraw = true ↔ t.faultValid = false ∧ (i = .cls ∨ ∃ x y n, i = .drw x y n)) := by
  obtain ⟨hstatus, hcont, hredraw, hi, -⟩ | ⟨rfl, rfl⟩ | ⟨c, d, rfl⟩ := exec_outcome h
  · simp [hcont, hredraw, hi, State.faultValid_of_running (hstatus.trans hs)]
  · simp
  · simp

/-- A step of a running core is the instruction at pc after the host's moves, and the host's turn over. -/
theorem step_running_eq_next {s t : State} (hs : s.status = .running) (h : step s = .next t) :
    ∃ u, s.hostMoves.runningStep = .next u ∧ t = u.endTurn := by
  obtain ⟨u, hu, rfl⟩ := step_eq_next.mp h
  exact ⟨u, (State.coreStep_running (s := s.hostMoves) hs).symm.trans hu, rfl⟩

/-- Settles O13: a fetch fault and an unknown word give both outputs 0; otherwise the outputs are the decoded instruction's, and 00FD, 00E0 and
DXYN are the words of theirs. -/
theorem outputsOfEachStep : Obligations.OutputsOfEachStep := by
  unfold Obligations.OutputsOfEachStep
  intro s t hs h
  obtain ⟨u, hu, rfl⟩ := step_running_eq_next hs h
  obtain ⟨-, rfl⟩ | ⟨op, -, -, rfl⟩ | ⟨op, i, hfetch, hdecode, hexec⟩ := State.runningStep_cases hu
  · simp
  · simp
  · have hout := exec_outputs (s := s.hostMoves) hs hexec
    rw [exit_iff_word hdecode, cls_iff_word hdecode, drw_iff_family hdecode] at hout
    simpa [← s.hostMoves_fetch, hfetch] using hout

theorem State.faultReport_of_not_faultValid {s : State} (h : s.faultValid = false) : s.faultReport = none :=
  Option.not_isSome_iff_eq_none.mp (Bool.eq_false_iff.mp h)

/-- Settles O60, by the two directions of the fault report and the definitions of the other views. -/
theorem portsShowTheState : Obligations.PortsShowTheState := by
  unfold Obligations.PortsShowTheState
  intro s
  exact ⟨State.faultValid_iff, fun c p d h => ⟨c.code, c.code_mem_faultCodes, State.faultReport_of_faulted h⟩,
    State.faultReport_of_not_faultValid, fun _ _ _ _ => rfl, rfl, rfl, decide_eq_true_iff⟩

theorem State.nextPc_toNat {s : State} (hpc : s.pc.toNat ≤ 4094) : s.nextPc.toNat = s.pc.toNat + 2 := by
  unfold State.nextPc; bv_omega

theorem State.skipPc_toNat {s : State} (hpc : s.pc.toNat ≤ 4094) : s.skipPc.toNat = s.pc.toNat + 4 := by
  unfold State.skipPc; bv_omega

theorem State.skipIf_pc_toNat {s : State} {b : Bool} {cond : Prop} [Decidable cond] (hpc : s.pc.toNat ≤ 4094)
    (hb : b = true ↔ cond) : (s.skipIf b).pc.toNat = skipTarget s.pc.toNat cond := by
  unfold skipTarget
  rw [State.skipIf_pc, ← State.skipPc_toNat hpc, ← State.nextPc_toNat hpc, apply_ite BitVec.toNat]
  exact if_congr hb rfl rfl

/-- The condition of a key skip names the one key that the cell holds. -/
theorem keyDown_iff_exists {s : State} {w : Word} {k : Nibble} (hk : keyIndex w = some k) (b : Bool) :
    (∃ q : Nibble, q.toNat = w.toNat ∧ s.keyDown q = b) ↔ s.keyDown k = b := by
  have hw := keyIndex_eq_some.mp hk
  constructor
  · rintro ⟨q, hq, hdown⟩
    rwa [BitVec.eq_of_toNat_eq (hq.trans hw)] at hdown
  · exact fun hdown => ⟨k, hw.symm, hdown⟩

/-- pc after an instruction that completes: its row of the table of 10_state.md R30. -/
theorem exec_completes_pc {i : Instr} {s t : State} (hpc : s.pc.toNat ≤ 4094) (hstack : s.stackOk)
    (h : exec i s = .next t) (hc : t.cont = true) : t.pc.toNat = s.pcAfter i := by
  cases i
  case ret =>
    obtain ⟨a, u, hpop, rfl⟩ := exec_ret_completes h hc
    obtain ⟨hsp, rfl, rfl⟩ := State.pop_eq_some.mp hpop
    have hentry := hstack ⟨s.sp.val - 1, by omega⟩ (by simp; omega)
    simp [State.pcAfter, hsp] at hentry ⊢
    omega
  case call nnn =>
    obtain ⟨u, -, rfl⟩ := exec_call_completes h hc
    exact zextAddr_toNat nnn
  case jp nnn => cases h; exact zextAddr_toNat nnn
  case jpV0 nnn =>
    obtain ⟨hle, rfl⟩ := exec_jpV0_completes h hc
    simp only [State.finish_pc, BitVec.toNat_ofNat, State.pcAfter]
    omega
  case seImm x nn | sneImm x nn =>
    cases h
    refine State.skipIf_pc_toNat hpc ?_
    simp [BitVec.toNat_eq]
  case seReg | sneReg => cases h; exact State.skipIf_pc_toNat hpc (by simp)
  case skp x =>
    obtain ⟨k, hk, rfl⟩ := exec_skp_completes h hc
    exact State.skipIf_pc_toNat hpc (keyDown_iff_exists hk true).symm
  case sknp x =>
    obtain ⟨k, hk, rfl⟩ := exec_sknp_completes h hc
    exact State.skipIf_pc_toNat hpc (by rw [keyDown_iff_exists hk, Bool.not_eq_true'])
  case ldVxK x =>
    obtain ⟨k, hkey, rfl⟩ | ⟨hkey, rfl⟩ := exec_ldVxK_cases h
    · exact (State.nextPc_toNat hpc).trans (by simp [State.pcAfter, hkey])
    · simp [State.pcAfter, hkey]
  case drw x y n =>
    obtain ⟨fb, b, rfl⟩ := exec_drw_completes h hc
    exact State.nextPc_toNat hpc
  case ldB x =>
    obtain ⟨-, rfl⟩ := exec_ldB_completes h hc
    exact State.nextPc_toNat hpc
  case storeRegs x =>
    obtain ⟨-, rfl⟩ := exec_storeRegs_completes h hc
    rw [State.storeAll_eq]
    exact State.nextPc_toNat hpc
  case loadRegs x =>
    obtain ⟨-, rfl⟩ := exec_loadRegs_completes h hc
    rw [State.loadAll_eq]
    exact State.nextPc_toNat hpc
  case exit | unimpl00CN | unimpl00FB | unimpl00FC | unimpl00FE | unimpl00FF | unimpl0NNN | unimplFX75 | unimplFX85 =>
    cases h
    simp at hc
  all_goals cases h; exact State.nextPc_toNat hpc

/-- Settles O14, by the three outcomes of an instruction: completed, halted (pc advances), faulted (pc stays). -/
theorem pcAfterEachInstruction : Obligations.PcAfterEachInstruction := by
  unfold Obligations.PcAfterEachInstruction
  intro i s t hs hpc hstack h
  obtain ⟨hstatus, hcont, -⟩ | ⟨rfl, rfl⟩ | ⟨c, d, rfl⟩ := exec_outcome h
  · rw [State.faultValid_of_running (hstatus.trans hs), if_neg Bool.false_ne_true]
    exact exec_completes_pc hpc hstack h hcont
  · exact State.nextPc_toNat hpc
  · rfl

end Sys2Proof.Machine
end

section
/-! The invariant of the reachable states, kept by every step (spec 10_state.md R23, R27; 20_memory.md R62, R64, R69; 40_control_flow.md
R124; 60_exceptions.md R228). -/

namespace Sys2Proof.Machine

/-! ### The V cells -/

theorem State.setV_cellsOk {s : State} (hs : s.cellsOk) (r : Nibble) {w : Word}
    (hw : s.cfg.shlMask8 = true → w.toNat ≤ 255) : (s.setV r w).cellsOk := by
  intro hmask q
  rw [State.reg_setV]
  split
  · exact hw hmask
  · exact hs hmask q

theorem State.setFlag_cellsOk {s : State} (hs : s.cellsOk) (b : Bool) : (s.setFlag b).cellsOk :=
  State.setV_cellsOk hs VF fun _ => by cases b <;> decide

theorem State.absDiff_cellsOk {s : State} (hs : s.cellsOk) (x q r : Nibble) : (s.absDiff x (s.reg q) (s.reg r)).cellsOk :=
  State.setV_cellsOk (State.setFlag_cellsOk hs _) x fun hmask => by
    have hq := hs hmask q
    have hr := hs hmask r
    rw [BitVec.toNat_ofNat]
    omega

theorem zext16_le (b : Byte) : (zext16 b).toNat ≤ 255 := by
  rw [zext16_toNat]; omega

theorem ofNat_mod_256_le (n : Nat) : (BitVec.ofNat 16 (n % 256)).toNat ≤ 255 := by
  rw [BitVec.toNat_ofNat]; omega

/-- Where 8XYE masks, no instruction puts more than 255 into a V cell (10_state.md R23 (a)). -/
theorem exec_completes_cellsOk {i : Instr} {s t : State} (hs : s.cellsOk) (h : exec i s = .next t)
    (hc : t.cont = true) : t.cellsOk := by
  obtain ⟨⟨hreg, -, -, -, -, -, -, -, -, hcfg, -⟩, -⟩ := exec_completes_frame h hc
  cases i
  case ldImm x nn => cases h; exact State.setV_cellsOk hs x fun _ => zext16_le nn
  case rnd x nn => cases h; exact State.setV_cellsOk hs x fun _ => zext16_le _
  case ldVxDt x => cases h; exact State.setV_cellsOk hs x fun _ => zext16_le s.dt
  case addImm x nn => cases h; exact State.setV_cellsOk hs x fun _ => ofNat_mod_256_le _
  case ldReg x y => cases h; exact State.setV_cellsOk hs x fun hmask => hs hmask y
  case orReg x y =>
    cases h
    refine State.setV_cellsOk hs x fun hmask => Nat.le_of_lt_succ ?_
    rw [BitVec.toNat_or]
    exact Nat.or_lt_two_pow (n := 8) (Nat.lt_succ_of_le (hs hmask x)) (Nat.lt_succ_of_le (hs hmask y))
  case andReg x y =>
    cases h
    refine State.setV_cellsOk hs x fun hmask => ?_
    rw [BitVec.toNat_and]
    exact Nat.and_le_left.trans (hs hmask x)
  case xorReg x y =>
    cases h
    refine State.setV_cellsOk hs x fun hmask => Nat.le_of_lt_succ ?_
    rw [BitVec.toNat_xor]
    exact Nat.xor_lt_two_pow (n := 8) (Nat.lt_succ_of_le (hs hmask x)) (Nat.lt_succ_of_le (hs hmask y))
  case addReg x y =>
    cases h
    exact State.setFlag_cellsOk (State.setV_cellsOk hs x fun _ => ofNat_mod_256_le _) _
  case subReg x y => cases h; exact State.absDiff_cellsOk hs x x y
  case subnReg x y => cases h; exact State.absDiff_cellsOk hs x y x
  case shr x y =>
    cases h
    have hflag := State.setFlag_cellsOk hs (shrOut (s.reg x))
    refine State.setV_cellsOk hflag x fun hmask => ?_
    rw [BitVec.toNat_ushiftRight]
    exact (Nat.shiftRight_le _ 1).trans (hflag hmask x)
  case shl x y =>
    cases h
    refine State.setV_cellsOk (State.setFlag_cellsOk hs _) x fun hmask => ?_
    rw [State.setFlag_cfg] at hmask
    rw [if_pos hmask]
    exact ofNat_mod_256_le _
  case addI x => cases h; exact State.setFlag_cellsOk (s := s.iWrite _) hs _
  case ldVxK x =>
    obtain ⟨k, -, rfl⟩ | ⟨-, rfl⟩ := exec_ldVxK_cases h
    · refine State.setV_cellsOk hs x fun _ => ?_
      rw [zextKey_toNat]; omega
    · exact hs
  case drw x y n =>
    obtain ⟨fb, b, rfl⟩ := exec_drw_completes h hc
    exact State.setFlag_cellsOk (s := { s with fb := fb }) hs b
  case loadRegs x =>
    obtain ⟨-, rfl⟩ := exec_loadRegs_completes h hc
    intro hmask r
    rw [State.done_reg, State.reg_loadAll]
    split
    · exact zext16_le _
    · exact hs (hcfg ▸ hmask) r
  all_goals exact fun hmask r => (hreg r List.not_mem_nil).symm ▸ hs (hcfg ▸ hmask) r

/-! ### Memory, I and the stack: kept by the frame, or by the instructions that write them -/

theorem exec_completes_memOk {i : Instr} {s t : State} (hs : s.memOk) (h : exec i s = .next t)
    (hc : t.cont = true) : t.memOk := by
  obtain ⟨⟨-, -, -, -, -, -, -, -, -, hcfg, -⟩, hmem⟩ := exec_completes_frame h hc
  by_cases hbytes : (s.writesOf i).bytes = []
  · rwa [State.memOk, hcfg, hmem hbytes]
  · obtain ⟨x, rfl⟩ | ⟨x, rfl⟩ := (s.bytes_writesOf i).mp hbytes
    · obtain ⟨-, rfl⟩ := exec_ldB_completes h hc
      exact State.storeBcd_memOk s _ hs
    · obtain ⟨-, rfl⟩ := exec_storeRegs_completes h hc
      exact State.storeAll_memOk s x hs

/-- Below 512 only the policy allow lets a store through (20_memory.md R69). -/
theorem State.writable_low {s : State} (hpolicy : s.cfg.lowWritePolicy ≠ .allow) {a : Nat} (ha : a < 512) :
    s.writable a = false := by
  simp [State.writable, hpolicy, ha]

theorem exec_completes_lowOk {i : Instr} {s t : State} (hs : s.lowOk) (h : exec i s = .next t)
    (hc : t.cont = true) : t.lowOk := by
  obtain ⟨⟨-, -, -, -, -, -, -, -, -, hcfg, -⟩, hmem⟩ := exec_completes_frame h hc
  intro hpolicy a ha
  rw [hcfg] at hpolicy ⊢
  have hw := s.writable_low hpolicy ha
  rw [← hs hpolicy a ha]
  by_cases hbytes : (s.writesOf i).bytes = []
  · exact State.load_congr (hmem hbytes) hcfg a
  · obtain ⟨x, rfl⟩ | ⟨x, rfl⟩ := (s.bytes_writesOf i).mp hbytes
    · obtain ⟨-, rfl⟩ := exec_ldB_completes h hc
      simp [State.load_storeBcd, hw]
    · obtain ⟨-, rfl⟩ := exec_storeRegs_completes h hc
      exact (s.load_storeAll x a).2 fun _ _ _ => hw

theorem exec_completes_indexOk {i : Instr} {s t : State} (hs : s.indexOk) (h : exec i s = .next t)
    (hc : t.cont = true) : t.indexOk := by
  obtain ⟨⟨-, hI, -⟩, -⟩ := exec_completes_frame h hc
  cases hindex : (s.writesOf i).index
  · rwa [State.indexOk, hI hindex]
  · obtain ⟨n, rfl⟩ | ⟨x, rfl⟩ | ⟨x, rfl⟩ := (s.index_writesOf i).mp hindex <;> cases h <;> exact s.iWrite_indexOk _

/-- 2NNN pushes its own address, which was fetched from; 00EE uncovers no new entry (40_control_flow.md R124). -/
theorem exec_completes_stackOk {i : Instr} {s t : State} (hpc : s.pc.toNat ≤ 4094) (hs : s.stackOk)
    (h : exec i s = .next t) (hc : t.cont = true) : t.stackOk := by
  obtain ⟨⟨-, -, hstack, -⟩, -⟩ := exec_completes_frame h hc
  cases hw : (s.writesOf i).stack
  · obtain ⟨hcells, hsp⟩ := hstack hw
    rwa [State.stackOk, hcells, hsp]
  · obtain ⟨nnn, rfl⟩ | rfl := (s.stack_writesOf i).mp hw
    · obtain ⟨u, hpush, rfl⟩ := exec_call_completes h hc
      obtain ⟨hlt, rfl⟩ := State.push_eq_some.mp hpush
      intro k hk
      by_cases hnew : s.sp.val = k.val
      · simpa [hnew] using hpc
      · have hold : k.val < s.sp.val := by simp at hk; omega
        simpa [hnew, Vector.getElem_set] using hs k hold
    · obtain ⟨a, u, hpop, rfl⟩ := exec_ret_completes h hc
      obtain ⟨hpos, -, rfl⟩ := State.pop_eq_some.mp hpop
      exact fun k hk => hs k (by simp at hk; omega)

/-! ### The invariant -/

theorem State.faultOk_of_running {s : State} (h : s.status = .running) : s.faultOk := by
  intro c fpc d hf
  rw [h] at hf; cases hf

theorem State.raise_inv {s : State} (hs : s.Inv) (c : Cause) (d : Nat) : (s.raise c d).Inv := by
  obtain ⟨hmem, hindex, hstack, hcells, hlow, -⟩ := hs
  exact ⟨hmem, hindex, hstack, hcells, hlow, fun c fpc d hf => by cases hf; rfl⟩

theorem State.halt_inv {s : State} (hs : s.Inv) : s.halt.Inv := by
  obtain ⟨hmem, hindex, hstack, hcells, hlow, -⟩ := hs
  exact ⟨hmem, hindex, hstack, hcells, hlow, fun c fpc d hf => by cases hf⟩

/-- An instruction fetched and executed by a running core keeps the invariant. -/
theorem exec_inv {i : Instr} {s t : State} (hrun : s.status = .running) (hpc : s.pc.toNat ≤ 4094) (hs : s.Inv)
    (h : exec i s = .next t) : t.Inv := by
  obtain ⟨hstatus, hc, -⟩ | ⟨-, rfl⟩ | ⟨c, d, rfl⟩ := exec_outcome h
  · obtain ⟨hmem, hindex, hstack, hcells, hlow, -⟩ := hs
    exact ⟨exec_completes_memOk hmem h hc, exec_completes_indexOk hindex h hc, exec_completes_stackOk hpc hstack h hc,
      exec_completes_cellsOk hcells h hc, exec_completes_lowOk hlow h hc, State.faultOk_of_running (hstatus.trans hrun)⟩
  · exact State.halt_inv hs
  · exact State.raise_inv hs c d

theorem State.coreStep_inv {s t : State} (hs : s.Inv) (h : s.coreStep = .next t) : t.Inv := by
  by_cases hrun : s.status = .running
  · rw [State.coreStep_running hrun] at h
    obtain ⟨-, rfl⟩ | ⟨op, -, -, rfl⟩ | ⟨op, i, hfetch, -, hexec⟩ := State.runningStep_cases h
    · exact State.raise_inv hs _ _
    · exact State.raise_inv hs _ _
    · exact exec_inv hrun (State.fetch_eq_some.mp hfetch).1 hs hexec
  · rw [State.coreStep_ended (by simp [State.ended, hrun])] at h
    cases h; exact hs

/-- Settles O19: the host's moves and the end of its turn write nothing the invariant speaks of, and the core's step keeps it. -/
theorem stepKeepsReachableForm : Obligations.StepKeepsReachableForm := by
  unfold Obligations.StepKeepsReachableForm
  intro s t hs h
  obtain ⟨u, hu, rfl⟩ := step_eq_next.mp h
  have hinv : u.Inv := State.coreStep_inv (s := s.hostMoves) hs hu
  exact hinv

end Sys2Proof.Machine
end

section
/-! The host's moves (spec 20_memory.md R72, 10_state.md R48), and step requests after the end of the run (70_reset_and_hazards.md R267). -/

namespace Sys2Proof.Machine

@[simp] theorem State.hostEvents_nil (s : State) : s.hostEvents [] = s := rfl

theorem State.hostEvents_cons (s : State) (e : HostEvent) (evs : List HostEvent) :
    s.hostEvents (e :: evs) = (s.hostEvent e).hostEvents evs := rfl

/-- Events change the latch and the timers and nothing else. -/
theorem State.hostEvents_eq (s : State) (evs : List HostEvent) :
    s.hostEvents evs =
      { s with keys := (s.hostEvents evs).keys, dt := (s.hostEvents evs).dt, st := (s.hostEvents evs).st } := by
  induction evs generalizing s with
  | nil => rfl
  | cons e evs ih =>
    rw [State.hostEvents_cons, ih, State.hostEvent_eq]

/-- Settles O6: the three fields the moves take from the events are all that the events write. -/
theorem hostMovesAreTheEvents : Obligations.HostMovesAreTheEvents := by
  unfold Obligations.HostMovesAreTheEvents
  intro s
  exact ⟨(s.hostEvents_eq _).symm, rfl, fun _ _ => rfl, s.hostEvents_eq,
    fun k v => ⟨rfl, rfl, fun q => s.keys_keyWrite k q v⟩, rfl⟩

/-- A step request after the end of the run: the host's moves, the outputs at 0, the host's turn over. -/
theorem step_of_ended {s : State} (h : s.ended = true) : step s = .next s.hostMoves.idle.endTurn :=
  step_eq_next.mpr ⟨_, State.coreStep_ended (s := s.hostMoves) h, rfl⟩

/-- Any number of step requests after the end, by induction on their number: each leaves the run ended. -/
theorem core_run_of_ended (k : Nat) {s : State} (h : s.ended = true) : ∃ t, core.run k s = .next t ∧
    t.mem = s.mem ∧ t.V = s.V ∧ t.I = s.I ∧ t.pc = s.pc ∧ t.stack = s.stack ∧ t.sp = s.sp ∧ t.fb = s.fb ∧
    t.status = s.status ∧ (0 < k → t.cont = false ∧ t.redraw = false) := by
  induction k generalizing s with
  | zero => exact ⟨s, rfl, rfl, rfl, rfl, rfl, rfl, rfl, rfl, rfl, fun h => absurd h (lt_irrefl 0)⟩
  | succ k ih =>
    obtain ⟨t, hrun, tmem, tV, tI, tpc, tstack, tsp, tfb, tstatus, hout⟩ := ih (s := s.hostMoves.idle.endTurn) h
    refine ⟨t, (core_run_succ (step_of_ended h)).trans hrun, tmem, tV, tI, tpc, tstack, tsp, tfb, tstatus, fun _ => ?_⟩
    cases k with
    | zero => cases hrun; exact ⟨rfl, rfl⟩
    | succ k => exact hout k.succ_pos

/-- Settles O10: one request by `step_of_ended`, any number by `core_run_of_ended`. -/
theorem endedRunStaysEnded : Obligations.EndedRunStaysEnded := by
  unfold Obligations.EndedRunStaysEnded
  exact fun s h => ⟨step_of_ended h, fun k => core_run_of_ended k h⟩

end Sys2Proof.Machine
end

section
/-! The state after reset (spec 10_state.md R53, 70_reset_and_hazards.md R262, R263). -/

namespace Sys2Proof.Machine

theorem State.resetWith_of_fits {c : Config} {program : List Byte} (h : program.length ≤ 3584) :
    State.resetWith c program = { State.reset with cfg := c, mem := Memory.writeAll c [] 512 program } :=
  if_neg (not_lt.mpr h)

theorem State.resetWith_of_tooLong {c : Config} {program : List Byte} (h : 3584 < program.length) :
    State.resetWith c program = { State.reset with
      cfg := c
      status := .faulted .loadError 0x200#16 (BitVec.ofNat 20 (min program.length 0xFFFFF)) } :=
  if_pos h

/-- Memory after a successful load: the image from 512 upward, the reset content elsewhere (70_reset_and_hazards.md R262). -/
theorem State.load_resetWith {c : Config} {program : List Byte} (h : program.length ≤ 3584) (a : Nat) :
    (State.resetWith c program).load a =
      if 512 ≤ a then (program[a - 512]?).getD (Memory.blank c a) else Memory.blank c a := by
  rw [State.resetWith_of_fits h]
  exact Memory.read_writeAll c [] program 512 a

theorem Memory.blank_of_font (c : Config) {a : Nat} (h : a < 80) : Memory.blank c a = c.font[a] := dif_pos h

theorem Memory.blank_of_ge (c : Config) {a : Nat} (h : 80 ≤ a) : Memory.blank c a = 0#8 := dif_neg (not_lt.mpr h)

/-- Settles O57: the four ranges of addresses read through `load_resetWith`, every other element as `State.reset` has it. -/
theorem resetValues : Obligations.ResetValues := by
  unfold Obligations.ResetValues
  intro c program h
  refine ⟨fun a ha => ?_, fun a hlo hhi => ?_, fun j hj => ?_, fun a hlo hhi => ?_, ?_⟩
  · rw [State.load_resetWith h, if_neg (by omega), Memory.blank_of_font c ha]
  · rw [State.load_resetWith h, if_neg (by omega), Memory.blank_of_ge c hlo]
  · rw [State.load_resetWith h, if_pos (by omega), Nat.add_sub_cancel_left, List.getElem?_eq_getElem hj, Option.getD_some]
  · rw [State.load_resetWith h, if_pos (by omega), List.getElem?_eq_none (by omega), Option.getD_none,
      Memory.blank_of_ge c (by omega)]
  · rw [State.resetWith_of_fits h]
    refine ⟨State.reset_reg, rfl, rfl, rfl, fun k => ?_, rfl, rfl, fun k _ => pixel_zero k, fun k => ?_, rfl⟩
    · exact Vector.getElem_replicate ..
    · exact Vector.getElem_replicate ..

/-- The registers, I, pc and the stack of reset satisfy the invariant; so does any state that differs from it in memory, parameters and
status only, if these do. -/
theorem State.inv_of_reset {c : Config} {mem : List Host.Cell} {status : Status}
    (hmem : Memory.wf c mem = true) (hlow : ∀ a, a < 512 → Memory.read c mem a = Memory.blank c a)
    (hfault : ∀ cause fpc d, status = .faulted cause fpc d → fpc = 0x200#16) :
    State.Inv { State.reset with cfg := c, mem := mem, status := status } := by
  refine ⟨hmem, Nat.zero_le _, fun k hk => absurd hk (Nat.not_lt_zero _), fun _ r => ?_, fun _ => hlow,
    fun cause fpc d h => (hfault cause fpc d h).symm⟩
  exact (congrArg BitVec.toNat (State.reset_reg r)).trans_le (Nat.zero_le _)

/-- Settles O18: an image that fits is written in canonical form above 511, and one that is too long leaves memory empty and pc at the
recorded 512. -/
theorem everyResetHasReachableForm : Obligations.EveryResetHasReachableForm := by
  unfold Obligations.EveryResetHasReachableForm
  intro c program
  by_cases h : program.length ≤ 3584
  · rw [State.resetWith_of_fits h]
    refine State.inv_of_reset (Memory.wf_writeAll c [] program (by omega) rfl) (fun a ha => ?_) (by simp [State.reset])
    rw [Memory.read_writeAll, if_neg (by omega), Memory.read_nil]
  · rw [State.resetWith_of_tooLong (by omega)]
    refine State.inv_of_reset rfl (fun a _ => rfl) (fun cause fpc d hf => ?_)
    cases hf; rfl

/-- Settles O17: `State.reset` is the reset with the default parameters and the empty image. -/
theorem resetHasReachableForm : Obligations.ResetHasReachableForm :=
  everyResetHasReachableForm defaultConfig []

end Sys2Proof.Machine
end

section
/-! The step around the decoded instruction, and fetch (spec 20_memory.md R65, R66, 40_control_flow.md R120); what memory reads as after a
store of several bytes, for a later fetch and for a later load (20_memory.md R69, R73, R76; 43_index_memory.md R177); the glyphs of the font
(20_memory.md R64). -/

namespace Sys2Proof.Machine

/-! ### The step -/

theorem State.runningStep_of_decode {s : State} {op : Word} {i : Instr} (hfetch : s.fetch = some op)
    (hdecode : decodeWord op = some i) : s.runningStep = exec i s := by
  simp only [State.runningStep, hfetch, hdecode]

theorem State.runningStep_of_fetch_none {s : State} (hfetch : s.fetch = none) :
    s.runningStep = .next (s.raise .pcOutOfRange s.pc.toNat) := by
  simp only [State.runningStep, hfetch]

/-- The step of a running core, from what the core answers after the host's moves. -/
theorem step_of_runningStep {s t : State} (hs : s.status = .running) (h : s.hostMoves.runningStep = .next t) :
    step s = .next t.endTurn :=
  step_eq_next.mpr ⟨t, (State.coreStep_running (s := s.hostMoves) hs).trans h, rfl⟩

/-- A raised fault changes the status latch and the outputs only (60_exceptions.md R228). -/
theorem State.raise_faultsTo (s : State) (c : Cause) (d : Nat) : s.FaultsTo (s.raise c d) c d :=
  ⟨rfl, rfl, rfl, rfl, (s.frame_raise {} c d).1⟩

/-- Settles O5: the host's moves leave pc and memory, so the word they leave to fetch is the one that decodes to `i`. -/
theorem stepRunsDecodedInstruction : Obligations.StepRunsDecodedInstruction := by
  unfold Obligations.StepRunsDecodedInstruction
  intro s i hs hpc hdecode
  have hfetch : s.hostMoves.fetch = some (s.load s.pc.toNat ++ s.load (s.pc.toNat + 1)) :=
    s.hostMoves_fetch.trans (State.fetch_eq_some.mpr ⟨hpc, rfl⟩)
  obtain ⟨t, hexec⟩ := exec_answers i s.hostMoves
  rw [hexec]
  exact step_of_runningStep hs ((State.runningStep_of_decode hfetch hdecode).trans hexec)

/-- Settles O8: the host's moves leave pc, so the fetch after them answers nothing and the step is the fault. -/
theorem fetchOutOfRangeFaults : Obligations.FetchOutOfRangeFaults := by
  unfold Obligations.FetchOutOfRangeFaults
  intro s hs hpc
  have hfetch : s.hostMoves.fetch = none := s.hostMoves_fetch.trans (State.fetch_eq_none.mpr hpc)
  exact ⟨_, s.hostMoves.raise_faultsTo _ _, step_of_runningStep hs (State.runningStep_of_fetch_none hfetch)⟩

/-! ### Where the transfers of several bytes complete -/

section
variable {s : State} (x : Nibble)

/-- The check of a store at I passes where its addresses are in memory and the policy does not forbid the first of them. -/
theorem State.checkStore_index_of_fits {n : Nat} (hfit : s.I.toNat + n ≤ 4096)
    (hlow : 512 ≤ s.I.toNat ∨ s.cfg.lowWritePolicy ≠ .fault) : s.checkStore s.I.toNat n = none := by
  refine State.checkStore_eq_none.mpr ⟨by omega, fun ⟨hlt, hfault⟩ => ?_⟩
  exact hlow.elim (not_le.mpr hlt) (absurd hfault)

theorem exec_storeRegs_of_fits (hfit : s.I.toNat + x.toNat ≤ 4095)
    (hlow : 512 ≤ s.I.toNat ∨ s.cfg.lowWritePolicy ≠ .fault) : exec (.storeRegs x) s = .next (s.storeAll x).done := by
  simp only [exec, execStoreRegs, State.checkStore_index_of_fits (n := x.toNat + 1) (by omega) hlow]

theorem exec_ldB_of_fits (hfit : s.I.toNat + 2 ≤ 4095)
    (hlow : 512 ≤ s.I.toNat ∨ s.cfg.lowWritePolicy ≠ .fault) :
    exec (.ldB x) s = .next (s.storeBcd (s.reg x)).done := by
  simp only [exec, execLdB, State.checkStore_index_of_fits (n := 3) (by omega) hlow]

theorem exec_loadRegs_of_fits (hfit : s.I.toNat + x.toNat ≤ 4095) :
    exec (.loadRegs x) s = .next (s.loadAll x).done := by
  simp only [exec, execLoadRegs, checkLoad_eq_none.mpr (show s.I.toNat + (x.toNat + 1) - 1 ≤ 4095 from hfit)]

/-! ### Every byte after a completed store -/

/-- Where a store of V0 to VX puts register k. -/
theorem State.byteAfterBulkStore_at {k : Nibble} (hk : k.toNat ≤ x.toNat)
    (hw : 512 ≤ s.I.toNat + k.toNat ∨ s.cfg.lowWritePolicy = .allow) :
    s.byteAfterBulkStore x (s.I.toNat + k.toNat) = lo8 (s.reg k) := by
  rw [State.byteAfterBulkStore, if_pos ⟨by omega, by omega, hw⟩, Nat.add_sub_cancel_left, nibble_ofNat_toNat,
    BitVec.ofNat_toNat, lo8]

/-- Memory after FX55: an address the store writes is I + k for some k ≤ X; any other address it names is not writable. -/
theorem State.load_storeAll_eq (hfit : s.I.toNat + x.toNat ≤ 4095) (a : Nat) :
    (s.storeAll x).load a = s.byteAfterBulkStore x a := by
  obtain ⟨hstored, hkept⟩ := s.load_storeAll x a
  by_cases hat : s.storesAt (x.toNat + 1) a
  · have ⟨hlo, hhi, hw⟩ := hat
    obtain ⟨k, hk⟩ : ∃ k : Nibble, k.toNat = a - s.I.toNat := ⟨BitVec.ofNat 4 (a - s.I.toNat), by
      have := x.isLt
      rw [BitVec.toNat_ofNat]; omega⟩
    obtain rfl : a = s.I.toNat + k.toNat := by omega
    rw [State.byteAfterBulkStore_at x (by omega) hw]
    exact hstored k (by omega) rfl ((s.writable_iff_storesAt hlo hhi (by omega)).mpr hat)
  · rw [State.byteAfterBulkStore, if_neg hat]
    refine hkept fun k hk ha => Bool.eq_false_iff.mpr fun hwr => hat ?_
    have haddr : a = s.I.toNat + k.toNat := ha
    exact (s.writable_iff_storesAt (by omega) (by omega) (by omega)).mp hwr

/-- Memory after FX33: the three addresses, each written exactly where it is writable, and every other. -/
theorem State.load_storeBcd_eq (hfit : s.I.toNat + 2 ≤ 4095) (a : Nat) :
    (s.storeBcd (s.reg x)).load a = s.byteAfterBcdStore x a := by
  rw [State.load_storeBcd]
  by_cases hat : s.storesAt 3 a
  · have ⟨hlo, hhi, _⟩ := hat
    have hwr := (s.writable_iff_storesAt hlo hhi (by omega)).mpr hat
    rw [State.byteAfterBcdStore, if_pos hat]
    simp only [hwr, and_true]
    obtain ha | ha | ha : a = s.I.toNat ∨ a = s.I.toNat + 1 ∨ a = s.I.toNat + 2 := by omega
    · simp [ha, State.effAddr, bcdHundreds]
    · simp [ha, State.effAddr, bcdTens]
    · simp [ha, State.effAddr, bcdOnes]
  · have hnot (j : Nat) (hj : j < 3) : ¬ (a = s.effAddr j ∧ s.writable a = true) := fun ⟨ha, hwr⟩ => by
      have haddr : a = s.I.toNat + j := ha
      exact hat ((s.writable_iff_storesAt (by omega) (by omega) (by omega)).mp hwr)
    rw [State.byteAfterBcdStore, if_neg hat, if_neg (hnot 2 (by decide)), if_neg (hnot 1 (by decide)),
      if_neg (hnot 0 (by decide))]

end

/-! ### Later fetches and later loads -/

/-- A fetch within memory is two loads, whatever they are known to read. -/
theorem State.fetch_of_load {u : State} {byteAt : Nat → Byte} (hpc : u.pc.toNat ≤ 4094) (hload : ∀ a, u.load a = byteAt a) :
    u.fetch = some (byteAt u.pc.toNat ++ byteAt (u.pc.toNat + 1)) :=
  State.fetch_eq_some.mpr ⟨hpc, by rw [hload, hload]⟩

/-- Settles O47: both instructions complete, and a later state with that memory loads, so fetches, the bytes after the store. -/
theorem nextFetchSeesBulkStore : Obligations.NextFetchSeesBulkStore := by
  unfold Obligations.NextFetchSeesBulkStore
  intro x s hlow
  refine ⟨fun hfit => ⟨_, exec_storeRegs_of_fits x hfit hlow, fun u hmem hcfg hpc => ?_⟩,
    fun hfit => ⟨_, exec_ldB_of_fits x hfit hlow, fun u hmem hcfg hpc => ?_⟩⟩
  · exact State.fetch_of_load hpc fun a => (State.load_congr hmem hcfg a).trans (State.load_storeAll_eq x hfit a)
  · exact State.fetch_of_load hpc fun a => (State.load_congr hmem hcfg a).trans (State.load_storeBcd_eq x hfit a)

/-- A cell brought to its low byte is the cell again exactly where it fits a byte. -/
theorem zext16_lo8_eq_iff (w : Word) : zext16 (lo8 w) = w ↔ w.toNat ≤ 255 := by
  rw [← BitVec.toNat_inj, zext16_toNat, lo8_toNat]
  omega

/-- Settles O46: the load completes and puts into register k ≤ X the byte at I + k, where the store has put its low byte. -/
theorem storeThenLoadRestoresRegisters : Obligations.StoreThenLoadRestoresRegisters := by
  unfold Obligations.StoreThenLoadRestoresRegisters
  intro x s t u hfit hwritable hexec hmem hcfg hI
  have hlow : 512 ≤ s.I.toNat ∨ s.cfg.lowWritePolicy ≠ .fault := hwritable.imp_right fun h => by simp [h]
  obtain rfl : (s.storeAll x).done = t := Host.Outcome.next.inj ((exec_storeRegs_of_fits x hfit hlow).symm.trans hexec)
  have huI : u.I = s.I := by rw [hI, State.done_I, State.storeAll_eq]
  refine ⟨_, exec_loadRegs_of_fits x (huI ▸ hfit), ?_, fun k hk => ?_⟩
  · rw [State.done_I, State.loadAll_eq, huI]
  · have hbyte : u.load (u.effAddr k.toNat) = lo8 (s.reg k) := by
      rw [State.load_congr hmem hcfg, State.effAddr, huI, State.done_load, State.load_storeAll_eq x hfit,
        State.byteAfterBulkStore_at x hk (hwritable.imp_left (Nat.le_add_right_of_le ·))]
    have hreg : (u.loadAll x).done.reg k = zext16 (lo8 (s.reg k)) := by
      rw [State.done_reg, State.reg_loadAll, if_pos hk, hbyte]
    rw [hreg, zext16_toNat, lo8_toNat]
    exact ⟨rfl, zext16_lo8_eq_iff _⟩

/-! ### The glyphs -/

/-- Under the policies fault and ignore the font is as reset left it in every state of the invariant (20_memory.md R64). -/
theorem State.lowOk.load_font {s : State} (h : s.lowOk) (hpolicy : s.cfg.lowWritePolicy ≠ .allow) {a : Nat} (ha : a < 80) :
    s.load a = s.cfg.font[a] :=
  (h hpolicy a (by omega)).trans (Memory.blank_of_font s.cfg ha)

/-- Settles O42: 5 × 15 fits the 12 bits of I, and FX29 leaves memory. -/
theorem glyphAddressLaw : Obligations.GlyphAddressLaw := by
  unfold Obligations.GlyphAddressLaw
  intro x d hd s hx
  have hI : (s.iWrite ((s.reg x).toNat * 5)).done.I.toNat = 5 * d := by
    rw [State.done_I, State.iWrite_I_toNat, hx]
    omega
  refine ⟨⟨_, rfl, hI, fun hfont j hj => ?_⟩, fun hlow hpolicy a ha => hlow.load_font hpolicy ha⟩
  rw [hI, State.done_load, State.iWrite_load]
  exact hfont (5 * d + j) (by omega)

end Sys2Proof.Machine
end

section
/-! The decoder and the encoder are inverse to each other on the well-formed instructions, and the words that decode to none (spec
30_encoding.md R95 to R99). -/

namespace Sys2Proof

/-! ### Which instructions their words decode to -/

theorem Instr.wellFormed_unimpl0NNN_iff {nnn : Addr} :
    (Instr.unimpl0NNN nnn).wellFormed = true ↔ nnn ∉ family0Exact ∧ nnn.extractLsb' 4 8 ≠ 0x0C#8 := by
  simp [Instr.wellFormed]

theorem wordNNN_eq_iff {f : Nibble} {nnn : Addr} {op : Word} : wordNNN f nnn = op ↔ nibble0 op = f ∧ fieldNNN op = nnn := by
  constructor
  · rintro rfl; exact ⟨nibble0_wordNNN .., fieldNNN_wordNNN ..⟩
  · rintro ⟨rfl, rfl⟩; exact (eq_wordNNN op).symm

/-- The family-0 words with bits 11:4 of 00CN are those of the row 00CN. -/
theorem wordNNN_row00CN_iff {nnn : Addr} :
    (wordNNN 0x0#4 nnn).extractLsb' 4 12 = 0x00C#12 ↔ nnn.extractLsb' 4 8 = 0x0C#8 := by
  have hword : (wordNNN 0x0#4 nnn).toNat = nnn.toNat := (BitVec.toNat_append 0x0#4 nnn).trans (by simp)
  simp only [← BitVec.toNat_inj, BitVec.extractLsb'_toNat, hword, Nat.shiftRight_eq_div_pow, BitVec.toNat_ofNat]
  omega

/-- The row 0NNN takes exactly the words of family 0 that no row with more mask bits takes (R96). -/
theorem decodeFamily0_wordNNN_eq_iff {nnn : Addr} :
    decodeFamily0 (wordNNN 0x0#4 nnn) = .unimpl0NNN nnn ↔ (Instr.unimpl0NNN nnn).wellFormed = true := by
  rw [Instr.wellFormed_unimpl0NNN_iff, decodeFamily0]
  split_ifs with h1 h2 h3 h4 h5 h6 h7 hc
  rotate_left 7
  · exact iff_of_false nofun fun h => h.2 (wordNNN_row00CN_iff.mp hc)
  · refine iff_of_true (congrArg _ (fieldNNN_wordNNN ..)) ⟨?_, mt wordNNN_row00CN_iff.mpr hc⟩
    intro hmem
    fin_cases hmem <;> contradiction
  all_goals
    obtain ⟨-, rfl⟩ := wordNNN_eq_iff.mp ‹wordNNN _ _ = _›
    decide

/-- Every row but 0NNN gets its own words back, whatever the operands; the row 0NNN gets those that no other row takes. -/
theorem decodeWord_encode_eq_iff (i : Instr) : decodeWord (encode i) = some i ↔ i.wellFormed = true := by
  cases i
  case unimpl0NNN nnn =>
    rw [encode, decodeWord, nibble0_wordNNN]
    exact Option.some_inj.trans decodeFamily0_wordNNN_eq_iff
  all_goals refine iff_of_true ?_ rfl
  case cls | ret | exit | unimpl00FB | unimpl00FC | unimpl00FE | unimpl00FF => rfl
  case unimpl00CN n => revert n; decide
  case ldReg | orReg | andReg | xorReg | addReg | subReg | shr | subnReg | shl => simp [encode, decodeWord, decodeFamily8]
  case skp | sknp => simp [encode, decodeWord, decodeFamilyE]
  case ldVxDt | ldVxK | ldDtVx | ldStVx | addI | ldF | ldB | storeRegs | loadRegs | unimplFX75 | unimplFX85 =>
    simp [encode, decodeWord, decodeFamilyF]
  all_goals simp [encode, decodeWord]

/-- Settles O2: the direction from a well-formed instruction of `decodeWord_encode_eq_iff`. -/
theorem decodeAfterEncode : Obligations.DecodeAfterEncode := by
  unfold Obligations.DecodeAfterEncode
  exact fun i hi => (decodeWord_encode_eq_iff i).mpr hi

/-- Settles O3: the word of the instruction is the word decoded, so it decodes to the instruction, which is then well-formed. -/
theorem encodeAfterDecode : Obligations.EncodeAfterDecode := by
  unfold Obligations.EncodeAfterDecode
  intro op i h
  have hop : encode i = op := encode_of_decodeWord h
  exact ⟨hop, (decodeWord_encode_eq_iff i).mp (hop ▸ h)⟩

/-! ### The words that decode to none -/

theorem decodeFamily8_eq_none_iff {x y n : Nibble} :
    decodeFamily8 x y n = none ↔ n ∈ [0x8#4, 0x9#4, 0xA#4, 0xB#4, 0xC#4, 0xD#4, 0xF#4] := by
  unfold decodeFamily8
  split
  case h_10 =>
    refine iff_of_true rfl ?_
    revert n; decide
  all_goals simp

theorem decodeFamilyE_eq_none_iff {x : Nibble} {nn : Byte} : decodeFamilyE x nn = none ↔ nn ∉ [0x9E#8, 0xA1#8] := by
  unfold decodeFamilyE
  split <;> simp_all

theorem decodeFamilyF_eq_none_iff {x : Nibble} {nn : Byte} :
    decodeFamilyF x nn = none ↔
      nn ∉ [0x07#8, 0x0A#8, 0x15#8, 0x18#8, 0x1E#8, 0x29#8, 0x33#8, 0x55#8, 0x65#8, 0x75#8, 0x85#8] := by
  unfold decodeFamilyF
  split <;> simp_all

/-- Settles O4: of the sixteen families the five named have words that decode to none, each those its own decoder has no row for. -/
theorem unknownWordsAreThoseListed : Obligations.UnknownWordsAreThoseListed := by
  unfold Obligations.UnknownWordsAreThoseListed
  intro op
  unfold decodeWord
  split <;> rename_i hf
  case h_9 => simp [hf, decodeFamily8_eq_none_iff]
  case h_15 => simp [hf, decodeFamilyE_eq_none_iff]
  case h_16 =>
    have hf : nibble0 op = 0xF#4 := by
      generalize nibble0 op = n at *
      revert n
      decide
    simp [hf, decodeFamilyF_eq_none_iff]
  all_goals simp [hf]

end Sys2Proof
end

section
/-! Control flow: jumps, calls, returns and the exit (spec 40_control_flow.md R124 to R128), the unimplemented patterns (R129) and the words in no
row of the opcode table (R131). -/

namespace Sys2Proof

/-- The eight recognised-but-unimplemented patterns (30_encoding.md R98). -/
def Instr.isUnimplemented : Instr → Bool
  | .unimpl00CN _ | .unimpl00FB | .unimpl00FC | .unimpl00FE | .unimpl00FF => true
  | .unimpl0NNN _ | .unimplFX75 _ | .unimplFX85 _ => true
  | _ => false

/-- Family 0 has three implemented words; every other word of it is in an unimplemented row (30_encoding.md R95, R96). -/
theorem decodeFamily0_isUnimplemented {op : Word} (hcls : op ≠ 0x00E0#16) (hret : op ≠ 0x00EE#16)
    (hexit : op ≠ 0x00FD#16) : (decodeFamily0 op).isUnimplemented = true := by
  rw [decodeFamily0, if_neg hcls, if_neg hret, if_neg hexit]
  split_ifs <;> rfl

theorem decodeWord_of_family0 {op : Word} (hf : nibble0 op = 0x0#4) : decodeWord op = some (decodeFamily0 op) := by
  simp only [decodeWord, hf]

theorem decodeWord_of_familyF {op : Word} (hf : nibble0 op = 0xF#4) :
    decodeWord op = decodeFamilyF (fieldX op) (fieldNN op) := by
  simp [decodeWord, hf]

/-- The words R129 names decode to unimplemented patterns. -/
theorem exists_isUnimplemented_of_word {op : Word}
    (h : (nibble0 op = 0x0#4 ∧ op ≠ 0x00E0#16 ∧ op ≠ 0x00EE#16 ∧ op ≠ 0x00FD#16) ∨
      (nibble0 op = 0xF#4 ∧ (fieldNN op = 0x75#8 ∨ fieldNN op = 0x85#8))) :
    ∃ i, decodeWord op = some i ∧ i.isUnimplemented = true := by
  obtain ⟨hf, hcls, hret, hexit⟩ | ⟨hf, hnn | hnn⟩ := h
  · exact ⟨_, decodeWord_of_family0 hf, decodeFamily0_isUnimplemented hcls hret hexit⟩
  · exact ⟨.unimplFX75 (fieldX op), by rw [decodeWord_of_familyF hf, hnn, decodeFamilyF], rfl⟩
  · exact ⟨.unimplFX85 (fieldX op), by rw [decodeWord_of_familyF hf, hnn, decodeFamilyF], rfl⟩

/-! ### The words of the unimplemented patterns as numbers -/

theorem encode_unimpl00CN_toNat (n : Nibble) : (encode (.unimpl00CN n)).toNat = 0x00C0 + n.toNat := by
  revert n; decide

theorem encode_unimpl0NNN_toNat (nnn : Addr) : (encode (.unimpl0NNN nnn)).toNat = nnn.toNat :=
  (BitVec.toNat_append 0x0#4 nnn).trans (by simp)

theorem encode_unimplFX75_toNat (x : Nibble) : (encode (.unimplFX75 x)).toNat = 0xF075 + 0x100 * x.toNat := by
  revert x; decide

theorem encode_unimplFX85_toNat (x : Nibble) : (encode (.unimplFX85 x)).toNat = 0xF085 + 0x100 * x.toNat := by
  revert x; decide

namespace Machine

/-! ### Unimplemented and unknown words -/

theorem exec_of_isUnimplemented {i : Instr} (h : i.isUnimplemented = true) (s : State) :
    exec i s = .next (s.raise .unimplementedOpcode (encode i).toNat) := by
  cases i
  case unimpl00CN | unimpl00FB | unimpl00FC | unimpl00FE | unimpl00FF | unimpl0NNN | unimplFX75 | unimplFX85 => rfl
  all_goals cases h

/-- An unimplemented pattern raises UnimplementedOpcode with its word, given as a number, as detail (R129). -/
theorem exec_faultsTo_of_isUnimplemented {i : Instr} {w : Nat} (h : i.isUnimplemented = true)
    (hw : (encode i).toNat = w) (s : State) : ∃ t, exec i s = .next t ∧ s.FaultsTo t .unimplementedOpcode w := by
  subst hw
  exact ⟨_, exec_of_isUnimplemented h s, s.raise_faultsTo _ _⟩

/-- Settles O56: each pattern by its word as a number; a word that R129 names decodes to a pattern, whose word it is. -/
theorem unimplementedPatternsFault : Obligations.UnimplementedPatternsFault := by
  unfold Obligations.UnimplementedPatternsFault
  refine ⟨fun s => ⟨fun n => ?_, ?_, ?_, ?_, ?_, fun nnn => ?_, fun x => ?_, fun x => ?_⟩, fun op hop => ?_⟩
  · exact exec_faultsTo_of_isUnimplemented rfl (encode_unimpl00CN_toNat n) s
  · exact exec_faultsTo_of_isUnimplemented rfl rfl s
  · exact exec_faultsTo_of_isUnimplemented rfl rfl s
  · exact exec_faultsTo_of_isUnimplemented rfl rfl s
  · exact exec_faultsTo_of_isUnimplemented rfl rfl s
  · exact exec_faultsTo_of_isUnimplemented rfl (encode_unimpl0NNN_toNat nnn) s
  · exact exec_faultsTo_of_isUnimplemented rfl (encode_unimplFX75_toNat x) s
  · exact exec_faultsTo_of_isUnimplemented rfl (encode_unimplFX85_toNat x) s
  · obtain ⟨i, hdecode, hi⟩ := exists_isUnimplemented_of_word hop
    exact ⟨i, hdecode, exec_faultsTo_of_isUnimplemented hi (congrArg _ (encode_of_decodeWord hdecode))⟩

theorem State.runningStep_of_decode_none {s : State} {op : Word} (hfetch : s.fetch = some op)
    (hdecode : decodeWord op = none) : s.runningStep = .next (s.raise .unknownOpcode op.toNat) := by
  simp only [State.runningStep, hfetch, hdecode]

/-- Settles O9: the host's moves leave pc and memory, so the word fetched after them is the unknown one. -/
theorem unknownWordFaults : Obligations.UnknownWordFaults := by
  unfold Obligations.UnknownWordFaults
  intro s op hs hfetch hdecode
  have hmoved : s.hostMoves.fetch = some op := s.hostMoves_fetch.trans hfetch
  exact ⟨_, s.hostMoves.raise_faultsTo _ _, rfl,
    step_of_runningStep hs (State.runningStep_of_decode_none hmoved hdecode)⟩

/-! ### Jumps and the exit -/

/-- `zext_16(NNN)` is NNN as a word. -/
theorem zextAddr_eq_ofNat (nnn : Addr) : zextAddr nnn = BitVec.ofNat 16 nnn.toNat :=
  (BitVec.ofNat_toNat 16 nnn).symm

/-- Settles O25: 1NNN only finishes at its target. -/
theorem jumpGoesToTarget : Obligations.JumpGoesToTarget := by
  unfold Obligations.JumpGoesToTarget
  intro nnn s
  exact ⟨s.finish (zextAddr nnn) false, rfl, ⟨zextAddr_eq_ofNat nnn, rfl, rfl⟩,
    (exec_completes_frame (i := .jp nnn) rfl rfl).1⟩

/-- Settles O30: 00FD is `halt`, which writes the status, pc and the outputs. -/
theorem exitHalts : Obligations.ExitHalts := by
  unfold Obligations.ExitHalts
  exact fun s => ⟨s.halt, rfl, rfl, rfl, rfl, rfl, (s.frame_halt {}).1⟩

theorem exec_jpV0_of_le {nnn : Addr} {s : State} (h : nnn.toNat + (s.reg 0x0#4).toNat ≤ 0xFFFF) :
    exec (.jpV0 nnn) s = .next (s.finish (BitVec.ofNat 16 (nnn.toNat + (s.reg 0x0#4).toNat)) false) :=
  congrArg Host.Outcome.next (if_neg (not_lt.mpr h))

theorem exec_jpV0_of_gt {nnn : Addr} {s : State} (h : 0xFFFF < nnn.toNat + (s.reg 0x0#4).toNat) :
    exec (.jpV0 nnn) s = .next (s.raise .pcOutOfRange (nnn.toNat + (s.reg 0x0#4).toNat)) :=
  congrArg Host.Outcome.next (if_pos h)

/-- Settles O29: the two sides of the check that the sum fits pc. -/
theorem jumpV0GoesToSum : Obligations.JumpV0GoesToSum := by
  unfold Obligations.JumpV0GoesToSum
  refine fun nnn s => ⟨fun hle => ?_, fun hgt => ⟨_, exec_jpV0_of_gt hgt, s.raise_faultsTo _ _⟩⟩
  have hexec := exec_jpV0_of_le hle
  refine ⟨_, hexec, ⟨rfl, rfl, rfl⟩, ?_, (exec_completes_frame hexec rfl).1⟩
  exact (BitVec.toNat_ofNat ..).trans (Nat.mod_eq_of_lt (by omega))

/-! ### Calls and returns -/

section
variable {s t : State}

theorem exec_call_of_push {nnn : Addr} (h : s.push s.pc = some t) :
    exec (.call nnn) s = .next (t.finish (zextAddr nnn) false) := by
  simp only [exec, execCall, h]

theorem exec_call_of_push_none {nnn : Addr} (h : s.push s.pc = none) :
    exec (.call nnn) s = .next (s.raise .stackOverflow 48) := by
  simp only [exec, execCall, h]

theorem exec_ret_of_pop {a : Word} (h : s.pop = some (a, t)) : exec .ret s = .next (t.finish (a + 2) false) := by
  simp only [exec, execRet, h]

theorem exec_ret_of_pop_none (h : s.pop = none) : exec .ret s = .next (s.raise .stackUnderflow 0) := by
  simp only [exec, execRet, h]

/-- The cells after a push: the value at the old sp, every other cell as before (10_state.md R33). -/
theorem State.stack_of_push {v : Word} (h : s.push v = some t) (k : Fin 48) :
    t.stack[k] = if k.val = s.sp.val then v else s.stack[k] := by
  obtain ⟨hsp, rfl⟩ := State.push_eq_some.mp h
  simp [Vector.getElem_set, eq_comm]

/-- A pop from the stack a push has left gives the pushed value and the old sp (10_state.md R33). -/
theorem State.pop_of_push {u : State} {v : Word} (h : s.push v = some t) (hstack : u.stack = t.stack)
    (hsp : u.sp = t.sp) : u.pop = some (v, { u with sp := s.sp }) := by
  obtain ⟨hroom, rfl⟩ := State.push_eq_some.mp h
  refine State.pop_eq_some.mpr ⟨by simp [hsp], ?_, ?_⟩
  · simp [hstack, hsp]
  · simp [hsp]

end

/-- Settles O26: the push answers where there is room, and the call then finishes at its target. -/
theorem callPushesAndJumps : Obligations.CallPushesAndJumps := by
  unfold Obligations.CallPushesAndJumps
  refine fun nnn s => ⟨fun hroom => ?_, fun hfull => ?_⟩
  · have hpush := (State.push_eq_some (v := s.pc)).mpr ⟨hroom, rfl⟩
    have hcells := State.stack_of_push hpush
    have hexec := exec_call_of_push (nnn := nnn) hpush
    exact ⟨_, hexec, ⟨zextAddr_eq_ofNat nnn, rfl, rfl⟩, rfl, hcells, (exec_completes_frame hexec rfl).1⟩
  · exact ⟨_, exec_call_of_push_none (State.push_eq_none.mpr hfull), s.raise_faultsTo _ _⟩

/-- Settles O27: the pop answers where an entry is in use, and the return then finishes 2 bytes after it. -/
theorem returnPopsAndResumes : Obligations.ReturnPopsAndResumes := by
  unfold Obligations.ReturnPopsAndResumes
  refine fun s => ⟨fun hused => ?_, fun hempty => ?_⟩
  · have hexec := exec_ret_of_pop (State.pop_eq_some.mpr ⟨hused, rfl, rfl⟩)
    refine ⟨_, hexec, ⟨rfl, rfl, rfl⟩, fun hentry => ?_, rfl, rfl, (exec_completes_frame hexec rfl).1⟩
    rw [State.finish_pc]
    bv_omega
  · exact ⟨_, exec_ret_of_pop_none (State.pop_eq_none.mpr hempty), s.raise_faultsTo _ _⟩

/-- Settles O28: the return pops the address the call has pushed, and a call within reach of fetch resumes without wrapping. -/
theorem returnResumesAfterCall : Obligations.ReturnResumesAfterCall := by
  unfold Obligations.ReturnResumesAfterCall
  intro nnn s t u hroom hpc hexec hstack hsp
  have hpush := (State.push_eq_some (v := s.pc)).mpr ⟨hroom, rfl⟩
  obtain rfl := Host.Outcome.next.inj ((exec_call_of_push hpush).symm.trans hexec)
  exact ⟨_, exec_ret_of_pop (State.pop_of_push hpush hstack hsp), rfl, State.nextPc_toNat hpc, rfl⟩

end Machine
end Sys2Proof
end

section
/-! The conditional skips (spec 41_skips.md R140 to R146). -/

namespace Sys2Proof.Machine

/-! ### What a skip does -/

theorem State.skipIf_keepsBut (s : State) (b : Bool) : s.KeepsBut {} (s.skipIf b) := by
  simp [State.KeepsBut]

theorem State.skipIf_completesAt {s : State} {b : Bool} {cond : Prop} [Decidable cond] (hb : b = true ↔ cond) :
    (s.skipIf b).CompletesAt (if cond then s.pc + 4 else s.pc + 2) false :=
  ⟨if_congr hb rfl rfl, rfl, rfl⟩

/-- An instruction that answers a skip goes to P + 4 where the skip's condition holds and to P + 2 elsewhere, and changes nothing else
(R140, 40_control_flow.md R122). -/
theorem exec_skips_of_eq_skipIf {i : Instr} {s : State} {b : Bool} {cond : Prop} [Decidable cond]
    (h : exec i s = .next (s.skipIf b)) (hb : b = true ↔ cond) :
    ∃ t, exec i s = .next t ∧ s.KeepsBut {} t ∧ t.CompletesAt (if cond then s.pc + 4 else s.pc + 2) false :=
  ⟨_, h, s.skipIf_keepsBut b, State.skipIf_completesAt hb⟩

/-! ### The comparisons of whole cells -/

/-- Settles O31: the four are skips, whose conditions compare the cells as numbers; the immediate is compared zero-extended. -/
theorem registerSkipsCompareWholeCells : Obligations.RegisterSkipsCompareWholeCells := by
  unfold Obligations.RegisterSkipsCompareWholeCells
  intro x y nn s
  refine ⟨?seImm, ?sneImm, ?seReg, ?sneReg⟩
  case seImm => exact exec_skips_of_eq_skipIf rfl (by rw [beq_iff_eq, BitVec.toNat_eq, zext16_toNat])
  case sneImm => exact exec_skips_of_eq_skipIf rfl (by rw [bne_iff_ne, BitVec.toNat_ne, zext16_toNat])
  case seReg => exact exec_skips_of_eq_skipIf rfl (by rw [beq_iff_eq, BitVec.toNat_eq])
  case sneReg => exact exec_skips_of_eq_skipIf rfl (by rw [bne_iff_ne, BitVec.toNat_ne])

/-! ### The key skips -/

section
variable {x : Nibble} {s : State}

theorem exec_skp_of_keyIndex {k : Nibble} (h : keyIndex (s.reg x) = some k) :
    exec (.skp x) s = .next (s.skipIf (s.keyDown k)) := by
  simp only [exec, execSkp, h]

theorem exec_skp_of_keyIndex_none (h : keyIndex (s.reg x) = none) :
    exec (.skp x) s = .next (s.raise .keyIndexOutOfRange (s.reg x).toNat) := by
  simp only [exec, execSkp, h]

theorem exec_sknp_of_keyIndex {k : Nibble} (h : keyIndex (s.reg x) = some k) :
    exec (.sknp x) s = .next (s.skipIf (!s.keyDown k)) := by
  simp only [exec, execSknp, h]

theorem exec_sknp_of_keyIndex_none (h : keyIndex (s.reg x) = none) :
    exec (.sknp x) s = .next (s.raise .keyIndexOutOfRange (s.reg x).toNat) := by
  simp only [exec, execSknp, h]

end

/-- Settles O32: a cell at most 15 is the index of a key, whose flag decides the skip; above 15 it is none and the fault is raised. -/
theorem keySkipsReadTheLatch : Obligations.KeySkipsReadTheLatch := by
  unfold Obligations.KeySkipsReadTheLatch
  refine fun x k s => ⟨fun hcell => ?_, fun habove => ?_⟩
  · have hkey : keyIndex (s.reg x) = some k := keyIndex_eq_some.mpr hcell
    exact ⟨exec_skips_of_eq_skipIf (exec_skp_of_keyIndex hkey) Iff.rfl,
      exec_skips_of_eq_skipIf (exec_sknp_of_keyIndex hkey) (Bool.not_eq_true' _).to_iff⟩
  · have hkey : keyIndex (s.reg x) = none := keyIndex_eq_none.mpr habove
    exact ⟨⟨_, exec_skp_of_keyIndex_none hkey, s.raise_faultsTo _ _⟩,
      ⟨_, exec_sknp_of_keyIndex_none hkey, s.raise_faultsTo _ _⟩⟩

end Sys2Proof.Machine
end

section
/-! Load, arithmetic, logic, shift and random (spec 42_alu.md R150 to R164). The instructions write VX alone, the sum and then the carry, or the
flag and then VX; the order decides what VF holds where it is named (R164). -/

namespace Sys2Proof.Machine

/-! ### Flags as numbers -/

/-- A flag whose condition is `cond`, as the cell it is written to. -/
theorem flagWord_eq_ite {b : Bool} {cond : Prop} [Decidable cond] (h : b = true ↔ cond) :
    flagWord b = if cond then 1 else 0 := if_congr h rfl rfl

theorem shrOut_iff {a : Word} : shrOut a = true ↔ a.toNat % 2 = 1 := by
  rw [shrOut, BitVec.getLsbD, Nat.testBit_zero, decide_eq_true_iff]

theorem shlOut_iff {a : Word} : shlOut a = true ↔ 0x8000 ≤ a.toNat := by
  rw [shlOut, show a.getLsbD 15 = a.msb from (BitVec.msb_eq_getLsbD_last a).symm, BitVec.msb_eq_decide, decide_eq_true_iff]

/-- A flag shifted right is 0: what 8XY6 leaves in VF where X is F (R159). -/
theorem flagWord_ushiftRight_one (b : Bool) : flagWord b >>> 1 = 0 := by cases b <;> rfl

theorem ofNat_mod_256_toNat (n : Nat) : (BitVec.ofNat 16 (n % 256)).toNat = n % 256 := by
  rw [BitVec.toNat_ofNat]; omega

/-- The absolute value of a difference of cells is a cell: 8XY5 and 8XY7 lose nothing (R158). -/
theorem ofNat_natAbs_sub_toNat (a b : Word) :
    (BitVec.ofNat 16 ((a.toNat : Int) - b.toNat).natAbs).toNat = ((a.toNat : Int) - b.toNat).natAbs := by
  rw [BitVec.toNat_ofNat]; omega

theorem natAbs_sub_eq_ite (a b : Nat) : ((a : Int) - b).natAbs = if b ≤ a then a - b else b - a := by
  split <;> omega

/-- The width of 8XYE's result is the parameter's (R161). -/
theorem ofNat_ite_mod_toNat (p : Bool) (n : Nat) :
    (BitVec.ofNat 16 (if p then n % 256 else n % 65536)).toNat = n % (if p = true then 256 else 65536) := by
  rw [BitVec.toNat_ofNat]
  split <;> omega

/-! ### The three orders of writing -/

section
variable {i : Instr} {s : State} {x : Nibble} {w : Word} {b : Bool}

/-- An instruction that answers `done` completes at P + 2 and changes only what its row of `writesOf` lists. -/
theorem exec_completes_of_eq_done {u : State} (h : exec i s = .next u.done) (hpc : u.pc = s.pc) :
    u.done.CompletesAt (s.pc + 2) false ∧ s.KeepsBut (s.writesOf i) u.done :=
  ⟨⟨congrArg (· + 2) hpc, rfl, rfl⟩, (exec_completes_frame h rfl).1⟩

/-- VX alone is written. -/
theorem exec_of_eq_setV (h : exec i s = .next (s.setV x w).done) :
    ∃ t, exec i s = .next t ∧ t.CompletesAt (s.pc + 2) false ∧ t.reg x = w ∧ s.KeepsBut (s.writesOf i) t := by
  obtain ⟨hat, hkeeps⟩ := exec_completes_of_eq_done h rfl
  exact ⟨_, h, hat, s.reg_setV_self x w, hkeeps⟩

/-- VX is written and then the flag, which wins where X is F. -/
theorem exec_of_eq_setV_then_flag (h : exec i s = .next ((s.setV x w).setFlag b).done) :
    ∃ t, exec i s = .next t ∧ t.CompletesAt (s.pc + 2) false ∧ t.reg VF = flagWord b ∧ (x ≠ VF → t.reg x = w) ∧
      s.KeepsBut (s.writesOf i) t := by
  obtain ⟨hat, hkeeps⟩ := exec_completes_of_eq_done h rfl
  refine ⟨_, h, hat, State.reg_setV_self _ VF _, fun hx => ?_, hkeeps⟩
  rw [State.done_reg, State.reg_setFlag, if_neg hx, State.reg_setV_self]

/-- The flag is written and then VX, which wins where X is F. -/
theorem exec_of_eq_flag_then_setV (h : exec i s = .next ((s.setFlag b).setV x w).done) :
    ∃ t, exec i s = .next t ∧ t.CompletesAt (s.pc + 2) false ∧ t.reg x = w ∧ (x ≠ VF → t.reg VF = flagWord b) ∧
      s.KeepsBut (s.writesOf i) t := by
  obtain ⟨hat, hkeeps⟩ := exec_completes_of_eq_done h rfl
  refine ⟨_, h, hat, State.reg_setV_self _ x w, fun hx => ?_, hkeeps⟩
  rw [State.done_reg, State.reg_setV_of_ne _ hx.symm, State.reg_setFlag, if_pos rfl]

/-- The statements 8XY5 and 8XY7 share, over the whole numbers as R158 and R160 have them. -/
theorem exec_of_eq_absDiff {a c : Word} (h : exec i s = .next (s.absDiff x a c).done) :
    ∃ t, exec i s = .next t ∧ t.CompletesAt (s.pc + 2) false ∧ (t.reg x).toNat = ((a.toNat : Int) - c.toNat).natAbs ∧
      (x ≠ VF → t.reg VF = if (a.toNat : Int) - c.toNat ≥ 0 then 1 else 0) ∧ s.KeepsBut (s.writesOf i) t := by
  obtain ⟨t, hexec, hat, hreg, hflag, hkeeps⟩ := exec_of_eq_flag_then_setV h
  refine ⟨t, hexec, hat, ?_, fun hx => ?_, hkeeps⟩
  · rw [hreg, ofNat_natAbs_sub_toNat]
  · rw [hflag hx]
    exact flagWord_eq_ite decide_eq_true_iff

end

/-! ### VX alone -/

/-- Settles O33: each writes VX alone; NN is zero-extended, the sum is reduced before it is a cell. -/
theorem loadsAndAddImmediate : Obligations.LoadsAndAddImmediate := by
  unfold Obligations.LoadsAndAddImmediate
  intro x y nn s
  refine ⟨?ldImm, ?addImm, ?ldReg⟩
  case ldImm =>
    obtain ⟨t, hexec, hat, hreg, hkeeps⟩ := exec_of_eq_setV (i := .ldImm x nn) (s := s) rfl
    exact ⟨t, hexec, hat, by rw [hreg, zext16_toNat], hkeeps⟩
  case addImm =>
    obtain ⟨t, hexec, hat, hreg, hkeeps⟩ := exec_of_eq_setV (i := .addImm x nn) (s := s) rfl
    exact ⟨t, hexec, hat, by rw [hreg, ofNat_mod_256_toNat], hkeeps⟩
  case ldReg => exact exec_of_eq_setV rfl

/-- Settles O34: each writes VX alone, and the operations on words are those on their bits. -/
theorem logicIsBitwise : Obligations.LogicIsBitwise := by
  unfold Obligations.LogicIsBitwise
  intro x y s
  refine ⟨?orReg, ?andReg, ?xorReg⟩
  case orReg =>
    obtain ⟨t, hexec, hat, hreg, hkeeps⟩ := exec_of_eq_setV (i := .orReg x y) (s := s) rfl
    exact ⟨t, hexec, hat, hkeeps, fun k => by rw [hreg, BitVec.getLsbD_or]⟩
  case andReg =>
    obtain ⟨t, hexec, hat, hreg, hkeeps⟩ := exec_of_eq_setV (i := .andReg x y) (s := s) rfl
    exact ⟨t, hexec, hat, hkeeps, fun k => by rw [hreg, BitVec.getLsbD_and]⟩
  case xorReg =>
    obtain ⟨t, hexec, hat, hreg, hkeeps⟩ := exec_of_eq_setV (i := .xorReg x y) (s := s) rfl
    exact ⟨t, hexec, hat, hkeeps, fun k => by rw [hreg, BitVec.getLsbD_xor]⟩

/-- The bytes the mask admits are those it leaves as they are. -/
theorem and_eq_self_of_and_not_eq_zero {r nn : Byte} (h : r &&& ~~~nn = 0#8) : r &&& nn = r :=
  calc r &&& nn = (r &&& nn) ||| (r &&& ~~~nn) := by rw [h, BitVec.or_zero]
    _ = r := by rw [← BitVec.and_or_distrib_left, BitVec.or_not_self, BitVec.and_allOnes]

/-- Settles O40: CXNN writes VX alone; a turn whose random byte is an admitted one makes that byte the result. -/
theorem randomIsMaskedAndFree : Obligations.RandomIsMaskedAndFree := by
  unfold Obligations.RandomIsMaskedAndFree
  refine fun x nn s => ⟨?masked, fun r hr => ?free⟩
  case masked =>
    obtain ⟨t, hexec, hat, hreg, hkeeps⟩ := exec_of_eq_setV (i := .rnd x nn) (s := s) rfl
    exact ⟨t, hexec, hat, by rw [hreg, zext16_toNat], hkeeps⟩
  case free =>
    obtain ⟨t, hexec, -, hreg, -⟩ := exec_of_eq_setV (i := .rnd x nn) (s := { s with script := [⟨[], none, r⟩] }) rfl
    have hmasked : t.reg x = zext16 (r &&& nn) := hreg
    exact ⟨_, t, hexec, by rw [hmasked, and_eq_self_of_and_not_eq_zero hr, zext16_toNat]⟩

/-! ### A result and a flag -/

/-- Settles O35: the carry is written after the sum. -/
theorem addSetsCarry : Obligations.AddSetsCarry := by
  unfold Obligations.AddSetsCarry
  intro x y s
  obtain ⟨t, hexec, hat, hflag, hreg, hkeeps⟩ := exec_of_eq_setV_then_flag (i := .addReg x y) (s := s) rfl
  refine ⟨t, hexec, hat, ?_, fun hx => ?_, hkeeps⟩
  · rw [hflag]
    exact flagWord_eq_ite decide_eq_true_iff
  · rw [hreg hx, ofNat_mod_256_toNat]

/-- The absolute value and the flag of `exec_of_eq_absDiff` by the order of the two cells. -/
theorem exec_of_eq_absDiff_ite {i : Instr} {s : State} {x : Nibble} {a c : Word}
    (h : exec i s = .next (s.absDiff x a c).done) :
    ∃ t, exec i s = .next t ∧ t.CompletesAt (s.pc + 2) false ∧
      (t.reg x).toNat = (if c.toNat ≤ a.toNat then a.toNat - c.toNat else c.toNat - a.toNat) ∧
      (x ≠ VF → t.reg VF = if c.toNat ≤ a.toNat then 1 else 0) ∧ s.KeepsBut (s.writesOf i) t := by
  obtain ⟨t, hexec, hat, hreg, hflag, hkeeps⟩ := exec_of_eq_absDiff h
  refine ⟨t, hexec, hat, hreg.trans (natAbs_sub_eq_ite _ _), fun hx => ?_, hkeeps⟩
  exact (hflag hx).trans (if_congr (by omega) rfl rfl)

/-- Settles O36: both write the flag and then the absolute value of their difference. -/
theorem subtractStoresAbsoluteDifference : Obligations.SubtractStoresAbsoluteDifference := by
  unfold Obligations.SubtractStoresAbsoluteDifference
  exact fun x y s => ⟨exec_of_eq_absDiff_ite rfl, exec_of_eq_absDiff_ite rfl⟩

/-- Settles O37: the flag is written and VX then read again, which is the flag itself where X is F. -/
theorem shiftRightDropsBitZero : Obligations.ShiftRightDropsBitZero := by
  unfold Obligations.ShiftRightDropsBitZero
  intro x y s
  obtain ⟨t, hexec, hat, hreg, hflag, hkeeps⟩ := exec_of_eq_flag_then_setV (i := .shr x y) (s := s) rfl
  rw [State.reg_setFlag] at hreg
  refine ⟨t, hexec, hat, fun hx => ⟨?_, ?_⟩, ?_, hkeeps, fun _ => hexec⟩
  · rw [hreg, if_neg hx, BitVec.toNat_ushiftRight, Nat.shiftRight_one]
  · rw [hflag hx]
    exact flagWord_eq_ite shrOut_iff
  · rintro rfl
    rw [hreg, if_pos rfl, flagWord_ushiftRight_one]

/-- A doubled flag fits both widths of 8XYE (R161). -/
theorem ofNat_doubled_flagWord (p b : Bool) :
    BitVec.ofNat 16 (if p then (flagWord b).toNat * 2 % 256 else (flagWord b).toNat * 2 % 65536) =
      if b then 2 else 0 := by
  cases p <;> cases b <;> rfl

/-- Settles O38: as O37, with the doubled cell reduced to the width of the parameter. -/
theorem shiftLeftTakesBitFifteen : Obligations.ShiftLeftTakesBitFifteen := by
  unfold Obligations.ShiftLeftTakesBitFifteen
  intro x y s
  obtain ⟨t, hexec, hat, hreg, hflag, hkeeps⟩ := exec_of_eq_flag_then_setV (i := .shl x y) (s := s) rfl
  rw [State.reg_setFlag] at hreg
  refine ⟨t, hexec, hat, fun hx => ⟨?_, ?_⟩, ?_, hkeeps, fun _ => hexec⟩
  · rw [hreg, if_neg hx, ofNat_ite_mod_toNat, Nat.mul_comm]
  · rw [hflag hx]
    exact flagWord_eq_ite shlOut_iff
  · rintro rfl
    rw [hreg, if_pos rfl]
    exact (ofNat_doubled_flagWord _ _).trans (if_congr shlOut_iff rfl rfl)

/-! ### VF as a named operand -/

/-- FX1E: the sum of the whole cells goes to I, masked, and its overflow to VF, whatever X is (43_index_memory.md R172). -/
theorem exec_addI (x : Nibble) (s : State) :
    ∃ t, exec (.addI x) s = .next t ∧ t.CompletesAt (s.pc + 2) false ∧
      t.I.toNat = (s.I.toNat + (s.reg x).toNat) % 0x1000 ∧
      t.reg VF = (if s.I.toNat + (s.reg x).toNat > 0xFFF then 1 else 0) ∧
      s.KeepsBut { index := true, regs := [VF] } t := by
  obtain ⟨hat, hkeeps⟩ := exec_completes_of_eq_done (i := .addI x) (s := s) rfl rfl
  refine ⟨_, rfl, hat, s.iWrite_I_toNat _, ?_, hkeeps⟩
  exact (State.reg_setV_self _ VF _).trans (flagWord_eq_ite decide_eq_true_iff)

/-- A cell has one bit above its lower 15: the doubled bit 15 as a number. -/
theorem ite_bit15_toNat (a : Word) : (if 0x8000 ≤ a.toNat then 2 else 0 : Word).toNat = 2 * (a.toNat / 0x8000) := by
  have ha := a.isLt
  split
  · rw [show a.toNat / 0x8000 = 1 by omega]; rfl
  · rw [show a.toNat / 0x8000 = 0 by omega]; rfl

/-- 8XY5 and 8XY7 with VX the absolute value as R164 writes it. -/
theorem exec_of_eq_absDiff_abs {i : Instr} {s : State} {x : Nibble} {a c : Word}
    (h : exec i s = .next (s.absDiff x a c).done) :
    ∃ t, exec i s = .next t ∧ ((t.reg x).toNat : Int) = |(a.toNat : Int) - c.toNat| ∧
      (x ≠ VF → t.reg VF = if (a.toNat : Int) - c.toNat ≥ 0 then 1 else 0) := by
  obtain ⟨t, hexec, -, hreg, hflag, -⟩ := exec_of_eq_absDiff h
  exact ⟨t, hexec, by rw [hreg, Int.natCast_natAbs], hflag⟩

/-- A cell less itself is 0. -/
theorem exec_of_eq_absDiff_self {i : Instr} {s : State} {x : Nibble} {a : Word}
    (h : exec i s = .next (s.absDiff x a a).done) : ∃ t, exec i s = .next t ∧ t.reg x = 0 := by
  obtain ⟨t, hexec, -, hreg, -⟩ := exec_of_eq_absDiff h
  exact ⟨t, hexec, BitVec.eq_of_toNat_eq (by simpa using hreg)⟩

/-- Settles O39: each row of the table is the instruction's own statement at X = F, at Y = F or at both. -/
theorem flagRegisterAsOperand : Obligations.FlagRegisterAsOperand := by
  unfold Obligations.FlagRegisterAsOperand
  intro r s hr
  refine ⟨?addFR, ?addRF, ?addFF, ?subFR, ?subRF, ?subFF, ?subnFR, ?subnRF, ?subnFF, ?shrF, ?shrR, ?shlF, ?shlR, ?addI⟩
  case addFR =>
    obtain ⟨t, hexec, -, hflag, -⟩ := addSetsCarry VF r s
    exact ⟨t, hexec, hflag⟩
  case addRF =>
    obtain ⟨t, hexec, -, hflag, hreg, -⟩ := addSetsCarry r VF s
    exact ⟨t, hexec, hreg hr, hflag⟩
  case addFF =>
    obtain ⟨t, hexec, -, hflag, -⟩ := addSetsCarry VF VF s
    exact ⟨t, hexec, by rw [hflag, two_mul]⟩
  case subFR =>
    obtain ⟨t, hexec, hreg, -⟩ := exec_of_eq_absDiff_abs (i := .subReg VF r) (s := s) rfl
    exact ⟨t, hexec, hreg⟩
  case subRF =>
    obtain ⟨t, hexec, hreg, hflag⟩ := exec_of_eq_absDiff_abs (i := .subReg r VF) (s := s) rfl
    exact ⟨t, hexec, hreg, hflag hr⟩
  case subnFR =>
    obtain ⟨t, hexec, hreg, -⟩ := exec_of_eq_absDiff_abs (i := .subnReg VF r) (s := s) rfl
    exact ⟨t, hexec, hreg⟩
  case subnRF =>
    obtain ⟨t, hexec, hreg, hflag⟩ := exec_of_eq_absDiff_abs (i := .subnReg r VF) (s := s) rfl
    exact ⟨t, hexec, hreg, hflag hr⟩
  case subFF | subnFF => exact exec_of_eq_absDiff_self rfl
  case shrF =>
    intro y
    obtain ⟨t, hexec, -, -, hVF, -⟩ := shiftRightDropsBitZero VF y s
    exact ⟨t, hexec, hVF rfl⟩
  case shrR =>
    obtain ⟨t, hexec, -, -, -, -, hanyY⟩ := shiftRightDropsBitZero r VF s
    exact ⟨t, hexec, hanyY r⟩
  case shlF =>
    intro y
    obtain ⟨t, hexec, -, -, hVF, -⟩ := shiftLeftTakesBitFifteen VF y s
    exact ⟨t, hexec, by rw [hVF rfl, ite_bit15_toNat]⟩
  case shlR =>
    obtain ⟨t, hexec, -, -, -, -, hanyY⟩ := shiftLeftTakesBitFifteen r VF s
    exact ⟨t, hexec, hanyY r⟩
  case addI =>
    obtain ⟨t, hexec, -, hI, hflag, -⟩ := exec_addI VF s
    exact ⟨t, hexec, hI, hflag⟩

end Sys2Proof.Machine
end

section
/-! The address register and the memory transfers (spec 43_index_memory.md R170 to R176). Every address is checked before anything is written
(R170): a transfer either completes over all its bytes or raises with nothing written. -/

namespace Sys2Proof.Machine

/-! ### The address register -/

/-- An instruction that answers `done` after one masked write of I: ANNN and FX29 (R171, R173). -/
theorem exec_of_eq_iWrite {i : Instr} {s : State} {v : Nat} (h : exec i s = .next (s.iWrite v).done) :
    ∃ t, exec i s = .next t ∧ t.CompletesAt (s.pc + 2) false ∧ t.I.toNat = v % 0x1000 ∧ s.KeepsBut (s.writesOf i) t := by
  obtain ⟨hat, hkeeps⟩ := exec_completes_of_eq_done h rfl
  exact ⟨_, h, hat, s.iWrite_I_toNat v, hkeeps⟩

/-- Settles O41: each writes I through the mask, which leaves NNN as it is; FX1E is `exec_addI`. -/
theorem indexRegisterWrites : Obligations.IndexRegisterWrites := by
  unfold Obligations.IndexRegisterWrites
  refine fun nnn x s => ⟨?ldI, exec_of_eq_iWrite rfl, exec_addI x s⟩
  case ldI =>
    obtain ⟨t, hexec, hat, hI, hkeeps⟩ := exec_of_eq_iWrite (i := .ldI nnn) (s := s) rfl
    exact ⟨t, hexec, hat, hI.trans (Nat.mod_eq_of_lt nnn.isLt), hkeeps⟩

section
variable {s : State} {x : Nibble}

/-! ### Where a check fails -/

theorem exec_ldB_of_checkStore {c : Cause} {d : Nat} (h : s.checkStore s.I.toNat 3 = some (c, d)) :
    exec (.ldB x) s = .next (s.raise c d) := by
  simp only [exec, execLdB, h]

theorem exec_storeRegs_of_checkStore {c : Cause} {d : Nat} (h : s.checkStore s.I.toNat (x.toNat + 1) = some (c, d)) :
    exec (.storeRegs x) s = .next (s.raise c d) := by
  simp only [exec, execStoreRegs, h]

theorem exec_loadRegs_of_checkLoad {c : Cause} {d : Nat} (h : checkLoad s.I.toNat (x.toNat + 1) = some (c, d)) :
    exec (.loadRegs x) s = .next (s.raise c d) := by
  simp only [exec, execLoadRegs, h]

/-- The two faults of an instruction that stores at I to I + n and raises what its check answers. The check of the addresses comes first;
n ≤ 15 keeps it from failing where I is below 512. -/
theorem exec_faultsTo_of_checkStore {i : Instr} {n : Nat} (hn : n ≤ 15)
    (hraise : ∀ {c d}, s.checkStore s.I.toNat (n + 1) = some (c, d) → exec i s = .next (s.raise c d)) :
    (4095 < s.I.toNat + n → ∃ t, exec i s = .next t ∧ s.FaultsTo t .addressOutOfRange 4096) ∧
    (s.I.toNat < 512 → s.cfg.lowWritePolicy = .fault →
      ∃ t, exec i s = .next t ∧ s.FaultsTo t .storeToProtected s.I.toNat) := by
  refine ⟨fun hbeyond => ?_, fun hlow hfault => ?_⟩
  · exact ⟨_, hraise (State.checkStore_eq_some.mpr (.inl ⟨hbeyond, rfl⟩)), s.raise_faultsTo _ _⟩
  · exact ⟨_, hraise (State.checkStore_eq_some.mpr (.inr ⟨by omega, hlow, hfault, rfl⟩)), s.raise_faultsTo _ _⟩

/-! ### The bytes and registers a completed transfer leaves -/

/-- Of the n addresses from I upward a completed store writes those at 512 or above, and all where the policy is allow (R69). -/
theorem State.storesAt_index_add_iff {n j : Nat} (hj : j < n) :
    s.storesAt n (s.I.toNat + j) ↔ 512 ≤ s.I.toNat + j ∨ s.cfg.lowWritePolicy = .allow :=
  ⟨fun ⟨_, _, hw⟩ => hw, fun hw => ⟨Nat.le_add_right _ _, Nat.add_lt_add_left hj _, hw⟩⟩

theorem State.byteAfterBcdStore_index_add {j : Nat} (hj : j < 3) :
    s.byteAfterBcdStore x (s.I.toNat + j) =
      if 512 ≤ s.I.toNat + j ∨ s.cfg.lowWritePolicy = .allow then
        (if j = 0 then BitVec.ofNat 8 ((s.reg x).toNat / 100)
          else if j = 1 then BitVec.ofNat 8 ((s.reg x).toNat / 10 % 10)
          else BitVec.ofNat 8 ((s.reg x).toNat % 10))
      else s.load (s.I.toNat + j) := by
  refine if_congr (State.storesAt_index_add_iff hj) ?_ rfl
  simp only [Nat.add_eq_left, Nat.add_left_cancel_iff, apply_ite (BitVec.ofNat 8)]

theorem State.byteAfterBulkStore_index_add {k : Nibble} (hk : k.toNat ≤ x.toNat) :
    s.byteAfterBulkStore x (s.I.toNat + k.toNat) =
      if 512 ≤ s.I.toNat + k.toNat ∨ s.cfg.lowWritePolicy = .allow then BitVec.ofNat 8 (s.reg k).toNat
      else s.load (s.I.toNat + k.toNat) := by
  refine if_congr (State.storesAt_index_add_iff (Nat.lt_succ_of_le hk)) ?_ rfl
  rw [Nat.add_sub_cancel_left, nibble_ofNat_toNat]

/-- The addresses FX55 stores at, as its row of `writesOf` lists them. -/
theorem State.bytes_writesOf_storeRegs (s : State) (x : Nibble) :
    (s.writesOf (.storeRegs x)).bytes = (List.range (x.toNat + 1)).map (s.I.toNat + ·) := by
  refine List.map_map.trans (List.map_congr_left fun j hj => congrArg (s.I.toNat + ·) ?_)
  have hj16 : j < 16 := (List.mem_range.mp hj).trans_le x.isLt
  rw [BitVec.toNat_ofNat, Nat.mod_eq_of_lt hj16]

end

/-! ### The transfers -/

/-- Settles O43: where the check passes all three stores are made, each dropped where it is not writable; else the check's fault is raised. -/
theorem bcdStoresThreeDigits : Obligations.BcdStoresThreeDigits := by
  unfold Obligations.BcdStoresThreeDigits
  intro x s
  obtain ⟨hbeyond, hprotected⟩ := exec_faultsTo_of_checkStore (i := .ldB x) (n := 2) (by decide) exec_ldB_of_checkStore
  refine ⟨fun hfit hlow => ?_, fun hI _ => hbeyond hI, hprotected⟩
  have hexec := exec_ldB_of_fits x hfit hlow
  obtain ⟨hat, hkeeps⟩ := exec_completes_of_eq_done hexec rfl
  refine ⟨_, hexec, hat, fun j hj => ?_, hkeeps⟩
  rw [State.done_load, State.load_storeBcd_eq x hfit, State.byteAfterBcdStore_index_add hj]

/-- Settles O44: as O43, for the low bytes of V0 to VX. -/
theorem bulkStoreWritesLowBytes : Obligations.BulkStoreWritesLowBytes := by
  unfold Obligations.BulkStoreWritesLowBytes
  intro x s
  obtain ⟨hbeyond, hprotected⟩ :=
    exec_faultsTo_of_checkStore (i := .storeRegs x) (Nat.le_of_lt_succ x.isLt) exec_storeRegs_of_checkStore
  refine ⟨fun hfit hlow => ?_, fun hI _ => hbeyond hI, hprotected⟩
  have hexec := exec_storeRegs_of_fits x hfit hlow
  obtain ⟨hat, hkeeps⟩ := exec_completes_of_eq_done hexec (by rw [State.storeAll_eq])
  refine ⟨_, hexec, hat, fun k hk => ?_, s.bytes_writesOf_storeRegs x ▸ hkeeps⟩
  rw [State.done_load, State.load_storeAll_eq x hfit, State.byteAfterBulkStore_index_add hk]

/-- Settles O45: where the check passes register k is the byte at I + k exactly for k ≤ X; else nothing is loaded. -/
theorem bulkLoadReadsBytes : Obligations.BulkLoadReadsBytes := by
  unfold Obligations.BulkLoadReadsBytes
  refine fun x s => ⟨fun hfit => ?_, fun hbeyond _ => ?_⟩
  · have hexec := exec_loadRegs_of_fits x hfit
    obtain ⟨hat, hkeeps⟩ := exec_completes_of_eq_done hexec (by rw [State.loadAll_eq])
    refine ⟨_, hexec, hat, fun k hk => ?_, fun k hk => ?_, hkeeps⟩
    · rw [State.done_reg, State.reg_loadAll, if_pos hk, zext16_toNat, State.effAddr]
    · rw [State.done_reg, State.reg_loadAll, if_neg (not_le.mpr hk)]
  · exact ⟨_, exec_loadRegs_of_checkLoad (checkLoad_eq_some.mpr ⟨hbeyond, rfl⟩), s.raise_faultsTo _ _⟩

end Sys2Proof.Machine
end

section
/-! Timer access and the key wait (spec 44_timers_keys.md R181 to R184). -/

namespace Sys2Proof.Machine

/-! ### The key wait -/

section
variable {s : State} {x : Nibble}

/-- With a key FX0A is the write of one register. -/
theorem exec_ldVxK_of_key {k : Nibble} (h : s.input.key = some k) :
    exec (.ldVxK x) s = .next (s.setV x (zextKey k)).done := by
  simp only [exec, execLdVxK, h]
  rfl

/-- Without a key FX0A finishes at its own address. -/
theorem exec_ldVxK_of_key_none (h : s.input.key = none) : exec (.ldVxK x) s = .next (s.finish s.pc false) := by
  simp only [exec, execLdVxK, h]

end

/-- Settles O49: with a key VX alone is written; without one the state is finished at the same pc. -/
theorem keyWaitPollsCurrentKey : Obligations.KeyWaitPollsCurrentKey := by
  unfold Obligations.KeyWaitPollsCurrentKey
  refine fun x s => ⟨fun k hkey => ?key, fun hnone => ?noKey⟩
  case key =>
    obtain ⟨t, hexec, hat, hreg, hkeeps⟩ := exec_of_eq_setV (exec_ldVxK_of_key (x := x) hkey)
    exact ⟨t, hexec, hat, by rw [hreg, zextKey_toNat], hkeeps⟩
  case noKey =>
    have hkeeps : s.KeepsBut {} (s.finish s.pc false) := by simp [State.KeepsBut]
    exact ⟨_, exec_ldVxK_of_key_none hnone, ⟨rfl, rfl, rfl⟩, hkeeps⟩

/-! ### The timers -/

/-- The sound output is on exactly where the sound timer is not 0 (10_state.md R36). -/
theorem State.soundOn_iff {s : State} : s.soundOn = true ↔ s.st.toNat ≠ 0 :=
  decide_eq_true_iff.trans Nat.pos_iff_ne_zero

/-- Settles O48: each completes after one write, of VX, dt or st; the timers take `lo8` of the cell, its value modulo 256. -/
theorem timerInstructions : Obligations.TimerInstructions := by
  unfold Obligations.TimerInstructions
  refine fun x s => ⟨?ldVxDt, ?ldDtVx, ?ldStVx⟩
  case ldVxDt =>
    obtain ⟨t, hexec, hat, hreg, hkeeps⟩ := exec_of_eq_setV (i := .ldVxDt x) (s := s) rfl
    exact ⟨t, hexec, hat, by rw [hreg, zext16_toNat], hkeeps⟩
  case ldDtVx =>
    obtain ⟨hat, hkeeps⟩ := exec_completes_of_eq_done (i := .ldDtVx x) (s := s) rfl rfl
    exact ⟨_, rfl, hat, lo8_toNat _, hkeeps⟩
  case ldStVx =>
    obtain ⟨hat, hkeeps⟩ := exec_completes_of_eq_done (i := .ldStVx x) (s := s) rfl rfl
    have hst : (lo8 (s.reg x)).toNat = (s.reg x).toNat % 256 := lo8_toNat _
    exact ⟨_, rfl, hat, hst, hst ▸ State.soundOn_iff, hkeeps⟩

end Sys2Proof.Machine
end

section
/-! Clear and draw (spec 45_draw.md R191 to R206). DXYN is the fold of the model run from the start coordinate and over the rows that the
statements name; what it draws is `drawSprite_spec`. -/

namespace Sys2Proof.Machine

/-- Settles O50: the framebuffer is written whole, with 0. -/
theorem clearTurnsEveryPixelOff : Obligations.ClearTurnsEveryPixelOff := by
  unfold Obligations.ClearTurnsEveryPixelOff
  intro s
  obtain ⟨hkeeps, -⟩ := exec_completes_frame (i := .cls) (s := s) rfl rfl
  exact ⟨_, rfl, ⟨rfl, rfl, rfl⟩, fun k _ => pixel_zero k, hkeeps⟩

section
variable {s t : State} {x y n : Nibble}

/-! ### The sprite's geometry -/

/-- VF is cleared before the start coordinate is read (R204). -/
theorem State.startCol_reg_setFlag_false (s : State) (x : Nibble) : startCol ((s.setFlag false).reg x) = s.spriteCol x := by
  rw [State.reg_setFlag, State.spriteCol]
  exact apply_ite startCol _ _ _

theorem State.startRow_reg_setFlag_false (s : State) (y : Nibble) : startRow ((s.setFlag false).reg y) = s.spriteRow y := by
  rw [State.reg_setFlag, State.spriteRow]
  exact apply_ite startRow _ _ _

theorem State.spriteCol_lt (s : State) (x : Nibble) : s.spriteCol x < 64 := by
  unfold State.spriteCol
  split
  · decide
  · exact Nat.mod_lt _ (by decide)

theorem State.spriteRow_lt (s : State) (y : Nibble) : s.spriteRow y < 32 := by
  unfold State.spriteRow
  split
  · decide
  · exact Nat.mod_lt _ (by decide)

theorem State.spriteRow_add_spriteRows_le (s : State) (y n : Nibble) : s.spriteRow y + s.spriteRows y n ≤ 32 := by
  have := s.spriteRow_lt y
  unfold State.spriteRows
  omega

theorem State.not_spriteFits_iff :
    ¬ s.spriteFits y n ↔ 1 ≤ s.spriteRows y n ∧ s.I.toNat + s.spriteRows y n - 1 > 4095 := by
  unfold State.spriteFits
  omega

/-! ### What DXYN answers -/

/-- The framebuffer and the collision flag that DXYN leaves where it completes. -/
def State.drawn (s : State) (x y n : Nibble) : BitVec 2048 × Bool :=
  s.drawSprite (s.spriteCol x) (s.spriteRow y) (s.spriteRows y n)

/-- `drawSprite_spec` in the terms of R205. -/
theorem State.drawn_spec (s : State) (x y n : Nibble) :
    (∀ r c, r < s.spriteRows y n → c < s.spriteCols x →
      pixel (s.drawn x y n).1 (s.spriteCell x y r c) = Bool.xor (pixel s.fb (s.spriteCell x y r c)) (s.spriteAt r c)) ∧
    (∀ k, (∀ r c, r < s.spriteRows y n → c < s.spriteCols x → k ≠ s.spriteCell x y r c) →
      pixel (s.drawn x y n).1 k = pixel s.fb k) ∧
    ((s.drawn x y n).2 = true ↔ ∃ r c, r < s.spriteRows y n ∧ c < s.spriteCols x ∧ s.spriteAt r c = true ∧
      pixel s.fb (s.spriteCell x y r c) = true) :=
  drawSprite_spec s (s.spriteCol_lt x) (s.spriteRow_add_spriteRows_le y n)

/-- DXYN with its operands read: the check of the drawn rows, then the draw (R202). -/
theorem exec_drw_eq_ite (x y n : Nibble) (s : State) : exec (.drw x y n) s =
    .next (if s.spriteRows y n ≥ 1 ∧ s.effAddr (s.spriteRows y n - 1) > 4095 then s.raise .addressOutOfRange 4096
      else (State.setFlag { s with fb := (s.drawn x y n).1 } (s.drawn x y n).2).finish s.nextPc true) := by
  simp only [exec, execDrw, State.startCol_reg_setFlag_false, State.startRow_reg_setFlag_false, State.setFlag_setFlag_withFb]
  rfl

theorem exec_drw_of_fits (x : Nibble) (h : s.spriteFits y n) : exec (.drw x y n) s =
    .next ((State.setFlag { s with fb := (s.drawn x y n).1 } (s.drawn x y n).2).finish s.nextPc true) := by
  have hcheck : ¬ (s.spriteRows y n ≥ 1 ∧ s.effAddr (s.spriteRows y n - 1) > 4095) := by
    unfold State.spriteFits at h
    unfold State.effAddr
    omega
  rw [exec_drw_eq_ite, if_neg hcheck]

theorem exec_drw_of_not_fits (x : Nibble) (h : ¬ s.spriteFits y n) :
    exec (.drw x y n) s = .next (s.raise .addressOutOfRange 4096) := by
  obtain ⟨hrows, hbeyond⟩ := State.not_spriteFits_iff.mp h
  have hcheck : s.effAddr (s.spriteRows y n - 1) > 4095 := by
    unfold State.effAddr
    omega
  rw [exec_drw_eq_ite, if_pos ⟨hrows, hcheck⟩]

/-! ### The sprite of a later state -/

theorem State.KeepsBut.spriteCol_eq {w : Writes} (h : s.KeepsBut w t) (hx : x ∉ w.regs) : t.spriteCol x = s.spriteCol x := by
  obtain ⟨hreg, -⟩ := h
  unfold State.spriteCol
  rw [hreg x hx]

theorem State.KeepsBut.spriteRow_eq {w : Writes} (h : s.KeepsBut w t) (hy : y ∉ w.regs) : t.spriteRow y = s.spriteRow y := by
  obtain ⟨hreg, -⟩ := h
  unfold State.spriteRow
  rw [hreg y hy]

/-- A framebuffer that is as it was need not be listed. -/
theorem State.KeepsBut.withoutPixels {w : Writes} (h : s.KeepsBut w t) (hfb : t.fb = s.fb) :
    s.KeepsBut { w with pixels := false } t := by
  obtain ⟨hreg, hI, hstack, hdt, hst, -, hrest⟩ := h
  exact ⟨hreg, hI, hstack, hdt, hst, fun _ => hfb, hrest⟩

/-- A draw that reads neither coordinate from VF leaves its own sprite as it was: the coordinates, I and memory stay (R200). -/
theorem State.KeepsBut.sprite_eq (h : s.KeepsBut { regs := [VF], pixels := true } t) (hx : x ≠ VF) (hy : y ≠ VF) :
    t.spriteRows y n = s.spriteRows y n ∧ t.spriteCols x = s.spriteCols x ∧ (∀ r c, t.spriteAt r c = s.spriteAt r c) ∧
      (∀ r c, t.spriteCell x y r c = s.spriteCell x y r c) := by
  have hcol : t.spriteCol x = s.spriteCol x := h.spriteCol_eq (mt List.mem_singleton.mp hx)
  have hrow : t.spriteRow y = s.spriteRow y := h.spriteRow_eq (mt List.mem_singleton.mp hy)
  obtain ⟨-, hI, -, -, -, -, -, hload, -⟩ := h
  refine ⟨?_, ?_, fun r c => ?_, fun r c => ?_⟩
  · rw [State.spriteRows, hrow, State.spriteRows]
  · rw [State.spriteCols, hcol, State.spriteCols]
  · rw [State.spriteAt, hI rfl, hload _ List.not_mem_nil, State.spriteAt]
  · rw [State.spriteCell, hcol, hrow, State.spriteCell]

end

/-! ### The statements about DXYN -/

theorem flagWord_eq_one_iff {b : Bool} : flagWord b = 1 ↔ b = true := by cases b <;> decide

/-- Settles O51: `drawn_spec` is the closed form, and VF is the collision flag as a cell. -/
theorem drawInClosedForm : Obligations.DrawInClosedForm := by
  unfold Obligations.DrawInClosedForm
  intro x y n s hfits
  have hexec := exec_drw_of_fits x hfits
  obtain ⟨hunder, hbeside, hcollision⟩ := s.drawn_spec x y n
  obtain ⟨hkeeps, -⟩ := exec_completes_frame hexec rfl
  refine ⟨_, hexec, ⟨rfl, rfl, rfl⟩, hunder, hbeside, ?_, ?_, hkeeps⟩
  · rw [State.finish_reg, State.reg_setFlag, if_pos rfl]
    cases (s.drawn x y n).2
    · exact .inl rfl
    · exact .inr rfl
  · rw [State.finish_reg, State.reg_setFlag, if_pos rfl, flagWord_eq_one_iff]
    exact hcollision

/-- Settles O52: the check fails exactly where the sprite does not fit; where it fits the draw completes. -/
theorem drawFaultsOnDrawnRowsOnly : Obligations.DrawFaultsOnDrawnRowsOnly := by
  unfold Obligations.DrawFaultsOnDrawnRowsOnly
  intro x y n s _
  simp only [← State.not_spriteFits_iff, not_not]
  by_cases hfits : s.spriteFits y n
  · exact ⟨_, exec_drw_of_fits x hfits, (absurd hfits ·), fun _ => ⟨rfl, rfl⟩⟩
  · exact ⟨_, exec_drw_of_not_fits x hfits, fun _ => s.raise_faultsTo _ _, (absurd · hfits)⟩

/-- Settles O53: the closed form with no row, where no cell is under the sprite. -/
theorem drawOfNoRows : Obligations.DrawOfNoRows := by
  unfold Obligations.DrawOfNoRows
  intro x y s
  have hrows : s.spriteRows y 0x0#4 = 0 := Nat.zero_min _
  obtain ⟨t, hexec, hat, -, hbeside, hflag, hcollision, hkeeps⟩ := drawInClosedForm x y 0x0#4 s (.inl hrows)
  rw [hrows] at hbeside hcollision
  have hfb : t.fb = s.fb := fb_ext fun k _ => hbeside k fun r c hr => absurd hr (Nat.not_lt_zero r)
  have hflag_ne : t.reg VF ≠ 1 := fun h => by
    obtain ⟨r, c, hr, -⟩ := hcollision.mp h
    exact Nat.not_lt_zero r hr
  exact ⟨t, hexec, hat, hflag.resolve_right hflag_ne, hkeeps.withoutPixels hfb⟩

/-- Settles O54: the second draw is of the same sprite at the same place, so a cell under it gets its bit twice and the rest stay. -/
theorem drawTwiceRestores : Obligations.DrawTwiceRestores := by
  unfold Obligations.DrawTwiceRestores
  intro x y n s t u hx hy hfits hfirst hsecond
  obtain ⟨t', hexec, -, hunder, hbeside, -, -, hkeeps⟩ := drawInClosedForm x y n s hfits
  obtain rfl : t' = t := Host.Outcome.next.inj (hexec.symm.trans hfirst)
  obtain ⟨hrows, hcols, hbit, hcell⟩ := hkeeps.sprite_eq (n := n) hx hy
  obtain ⟨-, hI, -⟩ := hkeeps
  have hfits' : t'.spriteFits y n := by rwa [State.spriteFits, hrows, hI rfl]
  obtain ⟨u', hexec', -, hunder', hbeside', -, hcollision', -⟩ := drawInClosedForm x y n t' hfits'
  obtain rfl : u' = u := Host.Outcome.next.inj (hexec'.symm.trans hsecond)
  simp only [hrows, hcols, hbit, hcell] at hunder' hbeside' hcollision'
  refine ⟨fb_ext fun k _ => ?_, hcollision'⟩
  by_cases hk : ∃ r c, r < s.spriteRows y n ∧ c < s.spriteCols x ∧ k = s.spriteCell x y r c
  · obtain ⟨r, c, hr, hc, rfl⟩ := hk
    rw [hunder' r c hr hc, hunder r c hr hc, Bool.xor_assoc, Bool.xor_self, Bool.xor_false]
  · have hne : ∀ r c, r < s.spriteRows y n → c < s.spriteCols x → k ≠ s.spriteCell x y r c :=
      fun r c hr hc h => hk ⟨r, c, hr, hc, h⟩
    rw [hbeside' k hne, hbeside k hne]

/-- Settles O55: over pixels that are all 0 a cell under the sprite gets its bit, and no bit collides. -/
theorem drawOnClearedScreen : Obligations.DrawOnClearedScreen := by
  unfold Obligations.DrawOnClearedScreen
  intro x y n s t u hcls hfb hfits
  cases hcls
  have hdark : ∀ k, pixel u.fb k = false := fun k => by rw [hfb]; exact pixel_zero k
  obtain ⟨v, hexec, -, hunder, hbeside, hflag, hcollision, -⟩ := drawInClosedForm x y n u hfits
  simp only [hdark, Bool.false_xor] at hunder hbeside
  have hflag_ne : v.reg VF ≠ 1 := fun h => by
    obtain ⟨r, c, -, -, -, hlit⟩ := hcollision.mp h
    exact Bool.false_ne_true ((hdark _).symm.trans hlit)
  refine ⟨v, hexec, hflag.resolve_right hflag_ne, fun k => ⟨fun hlit => ?_, ?_⟩⟩
  · by_contra hk
    have hstays : pixel v.fb k = false := hbeside k fun r c hr hc h =>
      hk ⟨r, c, hr, hc, h, by rw [← hunder r c hr hc, ← h, hlit]⟩
    exact Bool.false_ne_true (hstays.symm.trans hlit)
  · rintro ⟨r, c, hr, hc, rfl, hbit⟩
    rw [hunder r c hr hc, hbit]

end Sys2Proof.Machine
end

section
/-! Faults, the outcomes of a step, the timer tick and reset asserted again (spec 60_exceptions.md R220, R221, R228, R234, R244;
70_reset_and_hazards.md R260). -/

namespace Sys2Proof.Machine

/-- The three outcomes of a step of a running core (60_exceptions.md R220): where the step halts or faults, the whole state after it. -/
theorem step_running_cases {s t : State} (hs : s.status = .running) (h : step s = .next t) :
    (t.status = .running ∧ t.cont = true) ∨
    (s.fetch = some 0x00FD#16 ∧ t = s.hostMoves.halt.endTurn) ∨
    (∃ c d, t = (s.hostMoves.raise c d).endTurn) := by
  obtain ⟨u, hu, rfl⟩ := step_running_eq_next hs h
  obtain ⟨-, rfl⟩ | ⟨op, -, -, rfl⟩ | ⟨op, i, hfetch, hdecode, hexec⟩ := State.runningStep_cases hu
  · exact .inr (.inr ⟨_, _, rfl⟩)
  · exact .inr (.inr ⟨_, _, rfl⟩)
  · obtain ⟨hstatus, hcont, -⟩ | ⟨hexit, rfl⟩ | ⟨c, d, rfl⟩ := exec_outcome hexec
    · exact .inl ⟨hstatus.trans hs, hcont⟩
    · obtain rfl : op = 0x00FD#16 := (exit_iff_word hdecode).mp hexit
      exact .inr (.inl ⟨hfetch, rfl⟩)
    · exact .inr (.inr ⟨c, d, rfl⟩)

/-- Settles O11: the step answers, and its outcome is one of the three of `step_running_cases`. -/
theorem stepHasOneOfThreeOutcomes : Obligations.StepHasOneOfThreeOutcomes := by
  unfold Obligations.StepHasOneOfThreeOutcomes
  intro s hs
  obtain ⟨t, hstep, -⟩ := step_answers s
  refine ⟨t, hstep, ?_⟩
  obtain hcompletes | ⟨hfetch, rfl⟩ | ⟨c, d, rfl⟩ := step_running_cases hs hstep
  · exact .inl hcompletes
  · exact .inr (.inl ⟨rfl, rfl, hfetch⟩)
  · exact .inr (.inr ⟨_, c, d, s.hostMoves.raise_faultsTo c d, rfl⟩)

/-- Settles O12: of the three outcomes only the raised fault leaves the status Faulted, and what it records is its cause, pc and detail. -/
theorem faultsArePrecise : Obligations.FaultsArePrecise := by
  unfold Obligations.FaultsArePrecise
  intro s t c p d hs hstep hfault
  obtain ⟨hrunning, -⟩ | ⟨-, rfl⟩ | ⟨c', d', rfl⟩ := step_running_cases hs hstep
  · cases hrunning.symm.trans hfault
  · cases hfault
  · cases hfault
    exact ⟨rfl, rfl, c.code, c.code_mem_faultCodes, rfl⟩

/-- Settles O59: the state is that of the reset with the image but for the host's turns, of which the invariant does not speak. -/
theorem resetAgainHasTheSameEffect : Obligations.ResetAgainHasTheSameEffect := by
  unfold Obligations.ResetAgainHasTheSameEffect
  intro s program
  refine ⟨everyResetHasReachableForm s.cfg program, rfl, fun h => ?_⟩
  rw [State.assertReset, State.resetWith_of_fits h]
  exact ⟨rfl, rfl⟩

theorem State.timerTick_keepsBut (s : State) : s.KeepsBut { delay := true, sound := true } s.timerTick :=
  ⟨fun _ _ => rfl, fun _ => rfl, fun _ => ⟨rfl, rfl⟩, nofun, nofun, fun _ => rfl, fun _ => rfl, fun _ _ => rfl, rfl, rfl, rfl, rfl⟩

/-- Settles O7: each timer after the tick is `tickDown` of it, which as a number is the subtraction of 1 that stops at 0. -/
theorem timerTickDecrementsBoth : Obligations.TimerTickDecrementsBoth := by
  unfold Obligations.TimerTickDecrementsBoth
  intro s
  have hdt : s.timerTick.dt.toNat = s.dt.toNat - 1 := tickDown_toNat s.dt
  have hst : s.timerTick.st.toNat = s.st.toNat - 1 := tickDown_toNat s.st
  exact ⟨fun _ => hdt, fun h => by omega, fun _ => hst, fun h => by omega, s.timerTick_keepsBut, rfl, rfl, rfl⟩

/-- Settles O15: no arm of `exec` refuses or faults in the host's sense. -/
theorem everyInstructionAnswers : Obligations.EveryInstructionAnswers :=
  exec_answers

end Sys2Proof.Machine
end

section
/-! The load failure (spec 70_reset_and_hazards.md R263): a reset with an image that does not fit is the reset with the empty image, but for the
parameters and the fault it records. -/

namespace Sys2Proof.Machine

section
variable {c : Config} {program : List Byte} (h : 3584 < program.length)
include h

theorem State.resetWith_status_of_tooLong :
    (State.resetWith c program).status =
      .faulted .loadError 0x0200#16 (BitVec.ofNat 20 (if program.length ≤ 0xFFFFF then program.length else 0xFFFFF)) := by
  rw [State.resetWith_of_tooLong h, Nat.min_def]

theorem State.load_resetWith_of_tooLong (a : Nat) : (State.resetWith c program).load a = Memory.blank c a := by
  rw [State.resetWith_of_tooLong h]
  exact Memory.read_nil c a

theorem State.resetWith_ended_of_tooLong : (State.resetWith c program).ended = true := by
  simp [State.ended, State.resetWith_status_of_tooLong h]

end

/-- Settles O58: memory reads as blank, every other element is as `State.reset` has it, and the core has ended, so that no request of
`core_run_of_ended` executes anything. -/
theorem loadFailureFaults : Obligations.LoadFailureFaults := by
  unfold Obligations.LoadFailureFaults
  intro c program h
  have hstatus := State.resetWith_status_of_tooLong (c := c) h
  have hended := State.resetWith_ended_of_tooLong (c := c) h
  refine ⟨hstatus, State.faultReport_of_faulted hstatus, fun a ha => ?_, fun a hlo _ => ?_, ?_⟩
  · exact (State.load_resetWith_of_tooLong h a).trans (Memory.blank_of_font c ha)
  · exact (State.load_resetWith_of_tooLong h a).trans (Memory.blank_of_ge c hlo)
  · rw [State.resetWith_of_tooLong h] at hended ⊢
    refine ⟨State.reset_reg, rfl, rfl, rfl, fun k => ?_, rfl, rfl, fun k _ => pixel_zero k, fun k => ?_, fun n => ?_⟩
    · exact Vector.getElem_replicate ..
    · exact Vector.getElem_replicate ..
    · obtain ⟨t, hrun, hmem, hV, hI, hpc, hstack, hsp, hfb, hst, -⟩ := core_run_of_ended n hended
      exact ⟨t, hrun, hst, hpc, hV, hI, hmem, hstack, congrArg Fin.val hsp, hfb⟩

end Sys2Proof.Machine
end
